-- ==== Sys2Proof/Word.lean ====
section
/-!
DEFINITION. Word.lean: the widths the hardware works with (00_scope.md R6, R7).
Every quantity is unsigned.
-/

namespace Sys2Proof

/-- The unit of the output stream, a palette index, an LZW symbol (R60). -/
abbrev Byte := BitVec 8

/-- A 16-bit field: dimensions, delay, loop count, the `value` operand of BP_INSERT (R6, R61). -/
abbrev Half := BitVec 16

/-- A command word, `cmd[63:0]` (`CMD_BITS = 64`, R6, R80). -/
abbrev CmdWord := BitVec 64

/-- An LZW code, an integer in [0, 4095] (R12, R156). -/
abbrev Code := BitVec 12

end Sys2Proof
end

