-- ==== Sys2Proof/Machine/Units.lean ====
section
/-!
DEFINITION. Machine/Units.lean: the registers of the four units (10_state.md R23, R25, R27, R31),
as plain data, each register with the width the spec gives it.
-/

namespace Sys2Proof.Machine

/-- The LZW dictionary (R27): each key with its code, in the order the codes were assigned.
`Dict.wf` (Machine/Ops.lean) is the canonical form. -/
abbrev Dict := List (List Byte × Code)

/-- `bp_state` (R25, R35). -/
inductive BpState where
  | idle | opened | flushed
  deriving DecidableEq, Repr, Inhabited

/-- `lzw_state` (R27, R35). The source's CLEAR exists only inside LZW_INIT. -/
inductive LzwState where
  | idle | matching | flushed
  deriving DecidableEq, Repr, Inhabited

/-- `ca_state` (R31, R35). -/
inductive CaState where
  | idle | stream | palette | lctDone | pixels | done
  deriving DecidableEq, Repr, Inhabited

/-- SB (R23). `buf` holds the valid entries `sb_buf[0 .. sb_count-1]`, so `sb_count` is its length
(U3 allows it); `lastLen` is `sb_last_len`. -/
structure Sb where
  buf     : List Byte
  lastLen : BitVec 8
  deriving DecidableEq, Repr, Inhabited

/-- BP (R25): `bp_acc`, `bp_nbits`, `bp_state`. -/
structure Bp where
  acc   : BitVec 32
  nbits : BitVec 5
  state : BpState
  deriving DecidableEq, Repr, Inhabited

/-- LZW (R27): `lzw_state`, `lzw_s`, `lzw_width`, `lzw_next`, `lzw_dict`, `lzw_match`. -/
structure Lzw where
  state   : LzwState
  s       : BitVec 4
  width   : BitVec 4
  next    : BitVec 13
  dict    : Dict
  matched : List Byte
  deriving DecidableEq, Repr, Inhabited

/-- CA (R31): `ca_state`, `ca_ncolors`, `ca_depth`, `ca_palcount`. -/
structure Ca where
  state    : CaState
  ncolors  : BitVec 9
  depth    : BitVec 4
  palcount : BitVec 9
  deriving DecidableEq, Repr, Inhabited

/-- The registers of the four units: everything a command may write except the fault registers. -/
structure Units where
  sb  : Sb
  bp  : Bp
  lzw : Lzw
  ca  : Ca
  deriving DecidableEq, Repr, Inhabited

/-- A command in progress: the unit registers as it has written them so far, and the bytes it has
offered to the sink so far, oldest first (R8, R9). -/
structure Act where
  units  : Units
  offers : List Byte
  deriving DecidableEq, Repr

end Sys2Proof.Machine
end

