-- ==== Sys2Proof/Config.lean ====
section
/-!
DEFINITION. Config.lean: the implementation parameters of 00_scope.md R6 that the spec fixes, and the
free values: constants without a body, so that no proof can rest on what they are.
The two parameters R6 leaves OPEN, `LOOP_COUNT` and `SinkOk`, are data in State (log 3, log 9).
-/

namespace Sys2Proof.Config

/-- `SB_CAP`: payload bytes at which SB flushes by itself (R6, R101). -/
abbrev sbCap : Nat := 255

/-- `BP_WMIN` (R6, R123). -/
abbrev bpWidthMin : Nat := 1

/-- `BP_WMAX` (R6, R123). -/
abbrev bpWidthMax : Nat := 16

/-- `S_MIN` (R6, R140). -/
abbrev sMin : Nat := 2

/-- `S_MAX` (R6, R140). -/
abbrev sMax : Nat := 8

/-- `CODE_MAX`, the "maximum assignable code" (R6, R28). -/
abbrev codeMax : Nat := 4095

/-- `WIDTH_MAX`, the largest code width (R6, R144). -/
abbrev widthMax : Nat := 12

/-- `PAL_MAX`, the most palette entries in one frame (R6). -/
abbrev palMax : Nat := 256

/-- Free value: the unit registers after SINK_ERROR, and while a command hangs on the sink
(R227, R261, U1, U9); log 6. -/
opaque unspecifiedUnits : Nat → Machine.Units

/-- Free value: the status word while a command is in progress (R261, U9); log 7. -/
opaque unspecifiedStatus : Nat → BitVec 32

/-- Free value: the code of a string that is no key of the dictionary. R143 and R151(a) say that no
run looks one up; log 10. -/
opaque unmappedCode : List Byte → Code

end Sys2Proof.Config
end

