-- ==== Sys2Proof/Syntax.lean ====
section
/-!
DEFINITION. Syntax.lean: the sixteen commands (30_encoding.md R83, R87), one constructor per row of
spec/opcode_table.json, with the operands in the order of the assembler syntax.
-/

namespace Sys2Proof

/-- A command with its operands (R81, R87). -/
inductive Instr where
  /-- SB_PUSH byte (R103). -/
  | sbPush (byte : Byte)
  /-- SB_FLUSH (R104). -/
  | sbFlush
  /-- SB_CLOSE (R105). -/
  | sbClose
  /-- BP_OPEN (R122). -/
  | bpOpen
  /-- BP_INSERT width, value (R123); the field holds widths 0..31. -/
  | bpInsert (width : BitVec 5) (value : Half)
  /-- BP_FLUSH (R124). -/
  | bpFlush
  /-- LZW_INIT s (R147); the field holds 0..15. -/
  | lzwInit (s : BitVec 4)
  /-- LZW_ENCODE byte (R148). -/
  | lzwEncode (byte : Byte)
  /-- LZW_FLUSH (R149). -/
  | lzwFlush
  /-- GIF_BEGIN width, height, anim (R183). -/
  | gifBegin (width height : Half) (anim : Bool)
  /-- FRAME_BEGIN width, height, delay, ncolors (R187); `ncolors` is 1..256 and is encoded as
  `ncm1 = ncolors - 1` (R82, R87). -/
  | frameBegin (width height delay : Half) (ncolors : BitVec 9)
  /-- PAL r, g, b (R190). -/
  | pal (r g b : Byte)
  /-- DATA_BEGIN (R192). -/
  | dataBegin
  /-- PIXEL byte (R193). -/
  | pixel (byte : Byte)
  /-- FRAME_END (R194). -/
  | frameEnd
  /-- GIF_END (R196). -/
  | gifEnd
  deriving DecidableEq, Repr

end Sys2Proof
end

