-- ==== Sys2Proof/WellFormed.lean ====
section
/-!
DEFINITION. WellFormed.lean: which commands have a word (30_encoding.md R82, R87).
Every operand but one fills its field by its type; the number of palette entries must be 1..256,
because the word carries `ncolors - 1` in eight bits.
-/

namespace Sys2Proof

/-- The operand ranges of R87. -/
def Instr.wellFormed : Instr → Bool
  | .frameBegin _ _ _ ncolors => decide (1 ≤ ncolors.toNat ∧ ncolors.toNat ≤ Config.palMax)
  | .sbPush _ | .sbFlush | .sbClose | .bpOpen | .bpInsert _ _ | .bpFlush | .lzwInit _
  | .lzwEncode _ | .lzwFlush | .gifBegin _ _ _ | .pal _ _ _ | .dataBegin | .pixel _
  | .frameEnd | .gifEnd => true

end Sys2Proof
end

