-- ==== Sys2Proof/Decode.lean ====
section
/-!
DEFINITION. Decode.lean: the decoder, total on 64-bit words (30_encoding.md R80 to R86), the encoder
written from the same tables, and the host's view of both by bit numbers.
-/

namespace Sys2Proof

/-- `cmd[hi:lo]` as a value of `n = hi - lo + 1` bits (R7). -/
def CmdWord.field (w : CmdWord) (lo n : Nat) : BitVec n := w.extractLsb' lo n

/-- `op = cmd[63:56]` (R80). -/
def opcodeOf (w : CmdWord) : BitVec 8 := CmdWord.field w 56 8

/-- Format Z: `cmd[55:0]` reserved (R81). -/
def formatZ (w : CmdWord) (i : Instr) : Option Instr :=
  if CmdWord.field w 0 56 = 0 then some i else none

/-- Format B: `byte` in `cmd[7:0]`, `cmd[55:8]` reserved (R81). -/
def formatB (w : CmdWord) (mk : Byte → Instr) : Option Instr :=
  if CmdWord.field w 8 48 = 0 then some (mk (CmdWord.field w 0 8)) else none

/-- Format I: `value` in `cmd[15:0]`, `width` in `cmd[20:16]`, `cmd[55:21]` reserved (R81). -/
def formatI (w : CmdWord) : Option Instr :=
  if CmdWord.field w 21 35 = 0 then
    some (.bpInsert (CmdWord.field w 16 5) (CmdWord.field w 0 16))
  else none

/-- Format S: `s` in `cmd[3:0]`, `cmd[55:4]` reserved (R81). -/
def formatS (w : CmdWord) : Option Instr :=
  if CmdWord.field w 4 52 = 0 then some (.lzwInit (CmdWord.field w 0 4)) else none

/-- Format G: `width` in `cmd[15:0]`, `height` in `cmd[31:16]`, `anim` in `cmd[32]`, `cmd[55:33]`
reserved (R81). -/
def formatG (w : CmdWord) : Option Instr :=
  if CmdWord.field w 33 23 = 0 then
    some (.gifBegin (CmdWord.field w 0 16) (CmdWord.field w 16 16) (CmdWord.field w 32 1 == 1))
  else none

/-- Format F: `width` in `cmd[15:0]`, `height` in `cmd[31:16]`, `delay` in `cmd[47:32]`, `ncm1` in
`cmd[55:48]`, no reserved bits (R81); `ncolors = ncm1 + 1` (R82). -/
def formatF (w : CmdWord) : Option Instr :=
  some (.frameBegin (CmdWord.field w 0 16) (CmdWord.field w 16 16) (CmdWord.field w 32 16)
    (BitVec.ofNat 9 ((CmdWord.field w 48 8).toNat + 1)))

/-- Format P: `r` in `cmd[7:0]`, `g` in `cmd[15:8]`, `b` in `cmd[23:16]`, `cmd[55:24]` reserved
(R81). -/
def formatP (w : CmdWord) : Option Instr :=
  if CmdWord.field w 24 32 = 0 then
    some (.pal (CmdWord.field w 0 8) (CmdWord.field w 8 8) (CmdWord.field w 16 8))
  else none

/-- The decoder (R83, R85, R86): one of the sixteen commands with its operands, or `none` for an
illegal word, that is an unknown opcode or a reserved bit that is 1. It looks at nothing but the word. -/
def decode (w : CmdWord) : Option Instr :=
  match (opcodeOf w).toNat with
  | 0x10 => formatB w .sbPush
  | 0x11 => formatZ w .sbFlush
  | 0x12 => formatZ w .sbClose
  | 0x20 => formatZ w .bpOpen
  | 0x21 => formatI w
  | 0x22 => formatZ w .bpFlush
  | 0x30 => formatS w
  | 0x31 => formatB w .lzwEncode
  | 0x32 => formatZ w .lzwFlush
  | 0x40 => formatG w
  | 0x41 => formatF w
  | 0x42 => formatP w
  | 0x43 => formatZ w .dataBegin
  | 0x44 => formatB w .pixel
  | 0x45 => formatZ w .frameEnd
  | 0x46 => formatZ w .gifEnd
  | _ => none

/-- The opcode byte of a command (R83). -/
def Instr.opcode : Instr → BitVec 8
  | .sbPush _ => 0x10
  | .sbFlush => 0x11
  | .sbClose => 0x12
  | .bpOpen => 0x20
  | .bpInsert _ _ => 0x21
  | .bpFlush => 0x22
  | .lzwInit _ => 0x30
  | .lzwEncode _ => 0x31
  | .lzwFlush => 0x32
  | .gifBegin _ _ _ => 0x40
  | .frameBegin _ _ _ _ => 0x41
  | .pal _ _ _ => 0x42
  | .dataBegin => 0x43
  | .pixel _ => 0x44
  | .frameEnd => 0x45
  | .gifEnd => 0x46

/-- The operand bits `cmd[55:0]` of a command, reserved bits 0, highest field first (R81, R82). -/
def Instr.operandBits : Instr → BitVec 56
  | .sbPush b | .lzwEncode b | .pixel b => (0#48 ++ b).cast (by decide)
  | .bpInsert width value => (0#35 ++ width ++ value).cast (by decide)
  | .lzwInit s => (0#52 ++ s).cast (by decide)
  | .gifBegin width height anim => (0#23 ++ BitVec.ofBool anim ++ height ++ width).cast (by decide)
  | .frameBegin width height delay ncolors =>
      (BitVec.ofNat 8 (ncolors.toNat - 1) ++ delay ++ height ++ width).cast (by decide)
  | .pal r g b => (0#32 ++ b ++ g ++ r).cast (by decide)
  | .sbFlush | .sbClose | .bpOpen | .bpFlush | .lzwFlush | .dataBegin | .frameEnd | .gifEnd => 0#56

/-- The encoder: the word of a well-formed command (R80, R81, R83). -/
def encode (i : Instr) : CmdWord := (i.opcode ++ i.operandBits).cast (by decide)

/-- The command the decoder reads from a word whose bits are `w`, numbered as spec/opcode_table.json
numbers them: one 64-bit word, bit 0 its least significant bit (R80). -/
def decodeTableWord (nbits w : Nat) : Option Instr :=
  decode (BitVec.ofNat 64 (w % 2 ^ nbits))

end Sys2Proof
end

