-- ==== Sys2Proof/Machine/State.lean ====
section
/-!
DEFINITION. Machine/State.lean: the whole state as plain data (10_state.md), the outcomes' reasons,
and the state after reset (R39, R250).
-/

namespace Sys2Proof.Machine

/-- The fault registers `flt`, `flt_cause`, `flt_op` (R33), the hardware's only flags. -/
structure FaultRegs where
  flt   : Bool
  cause : BitVec 4
  op    : BitVec 8
  deriving DecidableEq, Repr

/-- The sink's answer to one offered byte (R36): it accepts, it fails (`out_err = 1`, R227), or it
never answers (R261, U8). -/
inductive SinkAnswer where
  | accept | fail | stall
  deriving DecidableEq, Repr

/-- What the host does next at the hardware's inputs (R37): it presents a command word, or it
asserts and releases `rst`. -/
inductive HostEvent where
  | command (word : CmdWord)
  | reset
  deriving DecidableEq, Repr

/-- The state: the registers of the units and the fault registers (R21), the port state the spec
names, and the environment. Nothing in it is a program: the command sequence is the host's input
(R20). -/
structure State where
  /-- The registers of SB, BP, LZW and CA (R23, R25, R27, R31). -/
  units     : Units
  /-- The fault registers (R33). -/
  faultRegs : FaultRegs
  /-- `out_valid` and `out_data` between steps: the byte a command in progress still offers to a sink
  that does not answer; `none` between commands (R37, R261). -/
  offered   : Option Byte
  /-- `out`: the bytes the sink has accepted, oldest first (R36). -/
  out       : List Byte
  /-- The oracle `SinkOk` as data: the answers to the next offered bytes, in order; beyond its end
  the sink accepts (R6, R9; log 3). -/
  sink      : List SinkAnswer
  /-- The host's next events, in order (R37, R70; log 1). -/
  host      : List HostEvent
  /-- The parameter `LOOP_COUNT` (R6, R186; log 9). No command and no reset writes it. -/
  loopCount : Half
  /-- How many free values have been used: it picks the next one (log 15). -/
  freeCount : Nat
  deriving DecidableEq, Repr

/-- Why the model stops. -/
inductive Fault where
  /-- Raised when the host presents a command while the command before it still waits for a sink
  that never answers: `cmd_ready` stays 0 and the word is never taken (R261; U8 calls it `stuck`).
  Safe: the hardware does nothing there either, and a reset is still a next state. -/
  | sinkNeverAnswers
  deriving DecidableEq, Repr

/-- Why the model gives no meaning. -/
inductive Refusal where
  /-- Raised by an arm of `exec` whose command has no meaning yet. Safe. No arm raises it. -/
  | notModelled (mnemonic : String)
  deriving DecidableEq, Repr

/-- The unit registers after reset (R39, R250). `sb_buf` is unspecified there and has no valid entry. -/
def Units.reset : Units where
  sb  := { buf := [], lastLen := 0 }
  bp  := { acc := 0, nbits := 0, state := .idle }
  lzw := { state := .idle, s := 0, width := 0, next := 0, dict := [], matched := [] }
  ca  := { state := .idle, ncolors := 0, depth := 0, palcount := 0 }

/-- The fault registers after reset (R39). -/
def FaultRegs.reset : FaultRegs where
  flt   := false
  cause := 0
  op    := 0

/-- The machine right after reset, at the start of a run: every register as R39 says, `out` empty by
the host's convention (R252), `LOOP_COUNT` at its default (R6), no event pending, a sink that
accepts (log 2, 3, 9, 14, 15). -/
def State.reset : State where
  units     := Units.reset
  faultRegs := FaultRegs.reset
  offered   := none
  out       := []
  sink      := []
  host      := []
  loopCount := 0
  freeCount := 0

end Sys2Proof.Machine
end

