-- ==== Sys2Proof/Machine/Flags.lean ====
section
/-!
DEFINITION. Machine/Flags.lean: the cause codes (60_exceptions.md R221), the state encodings and the
status word (10_state.md R34, R35), and the output ports that show them (R37).
-/

namespace Sys2Proof.Machine

/-- The causes of R221. -/
inductive Cause where
  | illegalCmd | caSequence | caParam | lzwState | lzwParam | lzwSymbol | bpState | bpWidth
  | sbState | sinkError
  deriving DecidableEq, Repr

/-- The code `flt_cause` records (R221). -/
def Cause.code : Cause → BitVec 4
  | .illegalCmd => 1
  | .caSequence => 2
  | .caParam => 3
  | .lzwState => 4
  | .lzwParam => 5
  | .lzwSymbol => 6
  | .bpState => 7
  | .bpWidth => 8
  | .sbState => 9
  | .sinkError => 10

/-- The encoding of `ca_state` (R35). -/
def CaState.code : CaState → BitVec 3
  | .idle => 0
  | .stream => 1
  | .palette => 2
  | .lctDone => 3
  | .pixels => 4
  | .done => 5

/-- The encoding of `lzw_state` (R35). -/
def LzwState.code : LzwState → BitVec 2
  | .idle => 0
  | .matching => 1
  | .flushed => 2

/-- The encoding of `bp_state` (R35). -/
def BpState.code : BpState → BitVec 2
  | .idle => 0
  | .opened => 1
  | .flushed => 2

/-- `sb_count`, the number of valid entries of `sb_buf` (R23). -/
def Sb.count (sb : Sb) : BitVec 8 := BitVec.ofNat 8 sb.buf.length

/-- The status word, from bit 31 down to bit 0: SBCNT, WIDTH, BP, LZW, CA, FOP, CAUSE, FLT (R34). -/
def statusWord (u : Units) (f : FaultRegs) : BitVec 32 :=
  u.sb.count ++ u.lzw.width ++ u.bp.state.code ++ u.lzw.state.code ++ u.ca.state.code ++
  f.op ++ f.cause ++ BitVec.ofBool f.flt

/-- The `status` port: the status word between commands; any value while a command is in progress
(R34, R261, U9). -/
def statusPort (s : State) : BitVec 32 :=
  match s.offered with
  | none => statusWord s.units s.faultRegs
  | some _ => Config.unspecifiedStatus s.freeCount

/-- The `fault` port, equal to `flt` (R37, R228). -/
def faultPort (s : State) : Bool := s.faultRegs.flt

/-- The `cmd_ready` port: 0 while a command runs (R37, R261). -/
def cmdReady (s : State) : Bool := s.offered.isNone

/-- The `out_valid` and `out_data` ports between steps: the byte still offered, if any (R37). -/
def outPort (s : State) : Option Byte := s.offered

end Sys2Proof.Machine
end

