-- ==== Sys2Proof/Machine/Operands.lean ====
section
/-!
DEFINITION. Machine/Operands.lean: the values commands compute from their operands and the byte
sequences they form: ranges of operands (R82, R123, R147, R183), the derived constants of an LZW
session (R28), depth and minimum code size (R181), the variable-width mask (R120), 16-bit fields (R61).
-/

namespace Sys2Proof.Machine

/-- `1 ≤ width ≤ 16`, the legal widths of BP_INSERT (R123). -/
def widthLegal (width : BitVec 5) : Bool :=
  decide (Config.bpWidthMin ≤ width.toNat ∧ width.toNat ≤ Config.bpWidthMax)

/-- `2 ≤ s ≤ 8`, the legal minimum code sizes of LZW_INIT (R147). -/
def codeSizeLegal (s : BitVec 4) : Bool :=
  decide (Config.sMin ≤ s.toNat ∧ s.toNat ≤ Config.sMax)

/-- `k < 2^lzw_s` (R148, R193, R156). -/
def symbolLegal (lzw : Lzw) (k : Byte) : Bool := decide (k.toNat < 2 ^ lzw.s.toNat)

/-- `width ≠ 0` and `height ≠ 0` (R183, R187). -/
def sizeLegal (width height : Half) : Bool := decide (width ≠ 0 ∧ height ≠ 0)

/-- `ceil_log2(n)`: the least `d ≥ 0` with `2^d ≥ n` (R7). `n` itself is such a `d`. -/
def ceilLog2 (n : Nat) : Nat :=
  ((List.range n).find? (fun d => decide (n ≤ 2 ^ d))).getD n

/-- `DepthOf(n) = max(1, ceil_log2(n))` (R181). -/
def depthOf (n : Nat) : Nat := max 1 (ceilLog2 n)

/-- The minimum code size of a frame of depth `depth`: `max(2, depth)` (R181, R192). -/
def minCodeSize (depth : BitVec 4) : BitVec 4 := BitVec.ofNat 4 (max 2 depth.toNat)

/-- `clear_code = 2^s` (R28), as a value for the Bit Packer. -/
def clearCode (s : BitVec 4) : Half := BitVec.ofNat 16 (2 ^ s.toNat)

/-- `eoi_code = 2^s + 1` (R28). -/
def eoiCode (s : BitVec 4) : Half := BitVec.ofNat 16 (2 ^ s.toNat + 1)

/-- `first_code = 2^s + 2` (R28), as a value of `lzw_next`. -/
def firstCode (s : BitVec 4) : BitVec 13 := BitVec.ofNat 13 (2 ^ s.toNat + 2)

/-- The width of the first code of a session, `s + 1` (R140). -/
def firstWidth (s : BitVec 4) : BitVec 4 := BitVec.ofNat 4 (s.toNat + 1)

/-- The variable-width mask: `value & (2^width - 1)` (R120, R125). -/
def maskTo (width : Nat) (value : Half) : Half := value &&& BitVec.ofNat 16 (2 ^ width - 1)

/-- `Emit16(v)` as bytes: `v[7:0]` then `v[15:8]` (R9, R61). -/
def bytes16 (v : Half) : List Byte := [v.extractLsb' 0 8, v.extractLsb' 8 8]

/-- EmitSignature: the ASCII of "GIF89a" (R184). -/
def signatureBytes : List Byte := [0x47, 0x49, 0x46, 0x38, 0x39, 0x61]

/-- EmitScreenDescriptor: 7 bytes (R185). -/
def screenDescriptorBytes (width height : Half) : List Byte :=
  bytes16 width ++ bytes16 height ++ [0x70, 0x00, 0x00]

/-- EmitLoopExtension: 19 bytes, application extension "NETSCAPE2.0" (R186). -/
def loopExtensionBytes (loopCount : Half) : List Byte :=
  [0x21, 0xFF, 0x0B] ++
  [0x4E, 0x45, 0x54, 0x53, 0x43, 0x41, 0x50, 0x45, 0x32, 0x2E, 0x30] ++
  [0x03, 0x01] ++ bytes16 loopCount ++ [0x00]

/-- EmitGCE: the graphics-control extension, 8 bytes (R188). -/
def gceBytes (delay : Half) : List Byte :=
  [0x21, 0xF9, 0x04, 0x00] ++ bytes16 delay ++ [0x00, 0x00]

/-- EmitImageDescriptor: 10 bytes; the last is `0x80 | (depth - 1)` (R189). -/
def imageDescriptorBytes (width height : Half) (depth : BitVec 4) : List Byte :=
  [0x2C] ++ bytes16 0 ++ bytes16 0 ++ bytes16 width ++ bytes16 height ++
  [0x80 ||| (depth - 1).setWidth 8]

/-- The copies that pad a colour table of `ncolors` entries to `2^depth`, each red, green, blue
(R63, R190, R191). -/
def paddingBytes (ca : Ca) (r g b : Byte) : List Byte :=
  (List.replicate (2 ^ ca.depth.toNat - ca.ncolors.toNat) [r, g, b]).flatten

/-- The trailer byte (R196). -/
def trailerByte : Byte := 0x3B

end Sys2Proof.Machine
end

