-- ==== Sys2Proof/Machine/Ops.lean ====
section
/-!
DEFINITION. Machine/Ops.lean: the operations commands share: `Emit` and the writes of a command in
progress (00_scope.md R8, R9), the dictionary (10_state.md R27, R28), the procedures of SB, BP and
LZW (R100 to R102, R120, R121, R141 to R146), fault entry and reset (R224, R250), the sink's answers
(R227), and the one way a command runs (R10, R223, R225).
-/

namespace Sys2Proof.Machine

/-! ## A command in progress -/

/-- `Emit` of each byte of `bs` in order (R9). What the sink answers is settled once, by `settle`. -/
def Act.emitAll (bs : List Byte) (a : Act) : Act := { a with offers := a.offers ++ bs }

/-- `Emit(b)` (R9). -/
def Act.emit (b : Byte) (a : Act) : Act := a.emitAll [b]

/-- Write the registers of SB. -/
def Act.setSb (x : Sb) (a : Act) : Act := { a with units := { a.units with sb := x } }

/-- Write the registers of BP. -/
def Act.setBp (x : Bp) (a : Act) : Act := { a with units := { a.units with bp := x } }

/-- Write the registers of LZW. -/
def Act.setLzw (x : Lzw) (a : Act) : Act := { a with units := { a.units with lzw := x } }

/-- Write the registers of CA. -/
def Act.setCa (x : Ca) (a : Act) : Act := { a with units := { a.units with ca := x } }

/-! ## The dictionary -/

/-- The code of a key (R27). -/
def Dict.lookup : Dict → List Byte → Option Code
  | [], _ => none
  | (k, c) :: d, m => if k = m then some c else Dict.lookup d m

/-- `lzw_dict(key) <- code` for a key that is not in the map (R143). -/
def Dict.insert (d : Dict) (key : List Byte) (code : Code) : Dict := d ++ [(key, code)]

/-- `Seed(s)`: the literals `[k]` for `k` in `0 .. 2^s - 1`, each with code `k` (R28). -/
def Dict.seed (s : BitVec 4) : Dict :=
  (List.range (2 ^ s.toNat)).map (fun k => ([BitVec.ofNat 8 k], BitVec.ofNat 12 k))

/-- The canonical form of a dictionary: codes strictly rising, keys non-empty and no key twice; so a
finite map with one key for a code is one list (R27, R29). -/
def Dict.wf (d : Dict) : Bool :=
  decide (d.Pairwise (fun x y => x.2.toNat < y.2.toNat ∧ x.1 ≠ y.1)) && d.all (fun e => e.1 ≠ [])

/-- `lzw_dict(m)`, the code written for a matched buffer (R143). Where `m` is no key, which no run
reaches (R151), the code is a free value (log 10). -/
def Dict.codeOf (d : Dict) (m : List Byte) : Code :=
  (Dict.lookup d m).getD (Config.unmappedCode m)

/-! ## SB procedures -/

/-- SBFlush (R100): the length byte, the payload, then the buffer is empty. -/
def sbFlush (a : Act) : Act :=
  let sb := a.units.sb
  ((a.emit sb.count).emitAll sb.buf).setSb { buf := [], lastLen := sb.count }

/-- SBPush (R101): the 255th byte flushes in the same step. -/
def sbPush (b : Byte) (a : Act) : Act :=
  let sb := { a.units.sb with buf := a.units.sb.buf ++ [b] }
  if sb.buf.length = Config.sbCap then sbFlush (a.setSb sb) else a.setSb sb

/-- SBClose (R102): a flush of a buffer that is not empty. -/
def sbClose (a : Act) : Act :=
  if 0 < a.units.sb.buf.length then sbFlush a else a

/-! ## BP procedures -/

/-- The first two lines of BPInsert (R120): mask, shift by `bp_nbits`, or into the accumulator. -/
def bpLoad (width : Nat) (value : Half) (bp : Bp) : Bp :=
  { bp with
    acc   := bp.acc ||| ((maskTo width value).setWidth 32 <<< bp.nbits.toNat)
    nbits := bp.nbits + BitVec.ofNat 5 width }

/-- One turn of BPInsert's loop (R120): the low byte goes to SB and leaves the accumulator. -/
def bpSend (a : Act) : Act :=
  let bp := a.units.bp
  (sbPush (bp.acc.extractLsb' 0 8) a).setBp { bp with acc := bp.acc >>> 8, nbits := bp.nbits - 8 }

/-- `n` turns of BPInsert's loop. -/
def bpDrain : Nat → Act → Act
  | 0, a => a
  | n + 1, a => bpDrain n (bpSend a)

/-- BPInsert (R120). The loop `while bp_nbits >= 8` takes 8 off each time, so it makes
`bp_nbits / 8` turns. -/
def bpInsert (width : Nat) (value : Half) (a : Act) : Act :=
  let bp := bpLoad width value a.units.bp
  bpDrain (bp.nbits.toNat / 8) (a.setBp bp)

/-- The first half of BPFlush (R121): the remaining bits as one zero-padded byte, if any remain. -/
def bpPad (a : Act) : Act :=
  let bp := a.units.bp
  if 0 < bp.nbits.toNat then
    (sbPush (bp.acc.extractLsb' 0 8) a).setBp { bp with acc := 0, nbits := 0 }
  else a

/-- BPFlush (R121): pad, forward a flush to SB always, end the session. -/
def bpFlush (a : Act) : Act :=
  let a := sbFlush (bpPad a)
  a.setBp { a.units.bp with state := .flushed }

/-- The operation of BP_OPEN (R122): a fresh session. SB is not touched. -/
def bpOpen (a : Act) : Act := a.setBp { acc := 0, nbits := 0, state := .opened }

/-! ## LZW procedures -/

/-- LZWEmit (R141): one code at the width of the moment. -/
def lzwEmit (c : Half) (a : Act) : Act := bpInsert a.units.lzw.width.toNat c a

/-- The dictionary seeded, the next code and the width at their starting values (R142, R145). -/
def lzwSeeded (s : BitVec 4) (z : Lzw) : Lzw :=
  { z with dict := Dict.seed s, next := firstCode s, width := firstWidth s }

/-- LZWInit (R142): the seeded session and the clear code. -/
def lzwInit (s : BitVec 4) (a : Act) : Act :=
  let a := a.setLzw (lzwSeeded s { a.units.lzw with s := s, matched := [] })
  let a := lzwEmit (clearCode s) a
  a.setLzw { a.units.lzw with state := .matching }

/-- The insertion of a miss (R143, R144): the candidate gets the next code, and the width grows when
that code equals `2^lzw_width`. -/
def lzwInsert (cand : List Byte) (z : Lzw) : Lzw :=
  { z with
    dict  := Dict.insert z.dict cand (z.next.setWidth 12)
    width := if z.next.toNat = 2 ^ z.width.toNat ∧ z.width.toNat < Config.widthMax
             then z.width + 1 else z.width
    next  := z.next + 1 }

/-- The miss of LZWEncode (R143, R145): the code of the matched buffer at the width before any
change, then an insertion, or the clear code and a seeded dictionary when it is full. -/
def lzwMiss (k : Byte) (a : Act) : Act :=
  let z := a.units.lzw
  let a := lzwEmit ((Dict.codeOf z.dict z.matched).setWidth 16) a
  if z.next.toNat ≤ Config.codeMax then
    a.setLzw (lzwInsert (z.matched ++ [k]) { z with matched := [k] })
  else
    (lzwEmit (clearCode z.s) a).setLzw (lzwSeeded z.s { z with matched := [k] })

/-- LZWEncode (R143): a hit lengthens the matched buffer, a miss writes. -/
def lzwEncode (k : Byte) (a : Act) : Act :=
  let z := a.units.lzw
  match Dict.lookup z.dict (z.matched ++ [k]) with
  | some _ => a.setLzw { z with matched := z.matched ++ [k] }
  | none => lzwMiss k a

/-- The codes of LZWFlush (R146): that of the matched buffer, if it is not empty, and EOI, both at
the width in force (R153). -/
def lzwFlushCodes (a : Act) : Act :=
  let z := a.units.lzw
  let a := if z.matched = [] then a else lzwEmit ((Dict.codeOf z.dict z.matched).setWidth 16) a
  lzwEmit (eoiCode z.s) a

/-- LZWFlush (R146). -/
def lzwFlush (a : Act) : Act :=
  let a := lzwFlushCodes a
  let a := bpFlush (a.setLzw { a.units.lzw with matched := [] })
  a.setLzw { a.units.lzw with state := .flushed }

/-! ## Faults and reset -/

/-- Fault entry, `raise <CAUSE>` (R10, R224): the three fault registers and nothing else. -/
def raise (c : Cause) (op : BitVec 8) (s : State) : State :=
  { s with faultRegs := { flt := true, cause := c.code, op := op } }

/-- Reset (R226, R250), the only way out of the faulted state: every register at its value of R39, a
byte still offered withdrawn, `out` untouched. -/
def hardReset (s : State) : State :=
  { s with units := Units.reset, faultRegs := FaultRegs.reset, offered := none }

/-! ## The sink -/

/-- How the sink took the bytes of one command. -/
inductive SinkEnd where
  | accepted | failed | hangs (b : Byte)
  deriving DecidableEq, Repr

/-- The bytes the sink accepted, how it ended, and the answers left. -/
structure Delivery where
  taken : List Byte
  ended : SinkEnd
  left  : List SinkAnswer
  deriving DecidableEq, Repr

/-- Offer bytes to the sink in order; the first that is not accepted ends it (R9, R70, R227, R261). -/
def deliver : List Byte → List SinkAnswer → Delivery
  | [], plan => { taken := [], ended := .accepted, left := plan }
  | b :: bs, [] => { taken := b :: bs, ended := .accepted, left := [] }
  | b :: bs, .accept :: plan =>
      let d := deliver bs plan
      { d with taken := b :: d.taken }
  | _ :: _, .fail :: plan => { taken := [], ended := .failed, left := plan }
  | b :: _, .stall :: plan => { taken := [], ended := .hangs b, left := plan }

/-- The unit registers become unspecified (R227, R261, U1, U9; log 6). -/
def forgetUnits (s : State) : State :=
  { s with units := Config.unspecifiedUnits s.freeCount, freeCount := s.freeCount + 1 }

/-- The end of a command whose checks have passed, with what it wrote and offered (R227, R261). If
the sink takes every byte the command's writes stand; if it fails on one, SINK_ERROR is raised and
the unit registers are unspecified; if it never answers, the command stays in progress. -/
def settle (op : BitVec 8) (a : Act) (s : State) : State :=
  let d := deliver a.offers s.sink
  let s := { s with out := s.out ++ d.taken, sink := d.left }
  match d.ended with
  | .accepted => { s with units := a.units }
  | .failed => raise .sinkError op (forgetUnits s)
  | .hangs b => { forgetUnits s with offered := some b }

/-! ## Running a command -/

/-- A word presented at the command port (R225, R261): not taken while a command hangs on the sink,
taken and discarded in the faulted state, else run. -/
def whenReady (s : State) (run : State → State) : Host.Outcome State Fault Refusal :=
  if s.offered.isSome then .fault .sinkNeverAnswers
  else if s.faultRegs.flt then .next s
  else .next (run s)

/-- The cause of the first check that fails, if any; checks are listed in the order they are made,
each as whether it fails and the cause it raises (R11, R223). -/
def firstFailing : List (Bool × Cause) → Option Cause
  | [] => none
  | (true, c) :: _ => some c
  | (false, _) :: rest => firstFailing rest

/-- One command (R5, R10, R11): the checks, before any write and any byte; then the operation, run to
its end; `op` is the command's opcode byte. -/
def perform (op : BitVec 8) (checks : Units → List (Bool × Cause)) (body : Act → Act) (s : State) :
    Host.Outcome State Fault Refusal :=
  whenReady s fun s =>
    match firstFailing (checks s.units) with
    | some c => raise c op s
    | none => settle op (body { units := s.units, offers := [] }) s

/-- An illegal word (R85): ILLEGAL_CMD, and no other effect. -/
def illegalWord (w : CmdWord) (s : State) : Host.Outcome State Fault Refusal :=
  whenReady s (raise .illegalCmd (opcodeOf w))

/-- Check 1 of every unit-level command: `ca_state` is IDLE or DONE, else CA_SEQUENCE (R230). -/
def unitAccess (u : Units) : Bool × Cause :=
  (u.ca.state ≠ .idle && u.ca.state ≠ .done, .caSequence)

/-- `ca_state` is the one state a CA-level command needs, else CA_SEQUENCE (R182). -/
def caIs (want : CaState) (u : Units) : Bool × Cause := (u.ca.state ≠ want, .caSequence)

/-- `bp_state = OPEN`, else BP_STATE (R123, R124, R147 to R149). -/
def bpIsOpen (u : Units) : Bool × Cause := (u.bp.state ≠ .opened, .bpState)

/-- `bp_state ≠ OPEN`, else BP_STATE (R122, R183). -/
def bpNotOpen (u : Units) : Bool × Cause := (u.bp.state = .opened, .bpState)

/-- `lzw_state = MATCH`, else LZW_STATE (R148, R149). -/
def lzwIsMatch (u : Units) : Bool × Cause := (u.lzw.state ≠ .matching, .lzwState)

/-- `lzw_state ≠ MATCH`, else LZW_STATE (R147, R183). -/
def lzwNotMatch (u : Units) : Bool × Cause := (u.lzw.state = .matching, .lzwState)

/-- `k < 2^lzw_s`, else LZW_SYMBOL (R148, R193). -/
def symbolFits (k : Byte) (u : Units) : Bool × Cause := (!symbolLegal u.lzw k, .lzwSymbol)

/-- `width ≠ 0` and `height ≠ 0`, else CA_PARAM (R183, R187). -/
def sizeFits (width height : Half) : Bool × Cause := (!sizeLegal width height, .caParam)

/-- `sb_count = 0`, else SB_STATE (R183). -/
def sbIsEmpty (u : Units) : Bool × Cause := (u.sb.buf.length ≠ 0, .sbState)

end Sys2Proof.Machine
end

