-- ==== Sys2Proof/Machine/BitPacker.lean ====
section
/-!
DEFINITION. Machine/BitPacker.lean: the commands of the Bit Packer (41_bit_packer.md R122 to R124).
-/

namespace Sys2Proof.Machine

/-- BP_OPEN (R122). -/
def execBpOpen (s : State) : Host.Outcome State Fault Refusal :=
  perform 0x20 (fun u => [unitAccess u, bpNotOpen u]) bpOpen s

/-- BP_INSERT (R123). -/
def execBpInsert (width : BitVec 5) (value : Half) (s : State) : Host.Outcome State Fault Refusal :=
  perform 0x21 (fun u => [unitAccess u, bpIsOpen u, (!widthLegal width, .bpWidth)])
    (bpInsert width.toNat value) s

/-- BP_FLUSH (R124). -/
def execBpFlush (s : State) : Host.Outcome State Fault Refusal :=
  perform 0x22 (fun u => [unitAccess u, bpIsOpen u]) bpFlush s

end Sys2Proof.Machine
end

