-- ==== Sys2Proof/Machine/Compressor.lean ====
section
/-!
DEFINITION. Machine/Compressor.lean: the commands of the LZW Compressor (42_lzw_compressor.md R147 to R149).
-/

namespace Sys2Proof.Machine

/-- LZW_INIT (R147). -/
def execLzwInit (n : BitVec 4) (s : State) : Host.Outcome State Fault Refusal :=
  perform 0x30 (fun u => [unitAccess u, lzwNotMatch u, (!codeSizeLegal n, .lzwParam), bpIsOpen u])
    (lzwInit n) s

/-- LZW_ENCODE (R148). -/
def execLzwEncode (byte : Byte) (s : State) : Host.Outcome State Fault Refusal :=
  perform 0x31 (fun u => [unitAccess u, lzwIsMatch u, symbolFits byte u, bpIsOpen u])
    (lzwEncode byte) s

/-- LZW_FLUSH (R149). -/
def execLzwFlush (s : State) : Host.Outcome State Fault Refusal :=
  perform 0x32 (fun u => [unitAccess u, lzwIsMatch u, bpIsOpen u]) lzwFlush s

end Sys2Proof.Machine
end

