-- ==== Sys2Proof/Machine/Container.lean ====
section
/-!
DEFINITION. Machine/Container.lean: the commands of the Container Assembler
(44_container_assembler.md R183 to R196).
-/

namespace Sys2Proof.Machine

/-- The operation of GIF_BEGIN (R183): signature, screen descriptor, and the looping extension when
`anim` is 1. -/
def gifBegin (width height : Half) (anim : Bool) (loopCount : Half) (a : Act) : Act :=
  let a := (a.emitAll signatureBytes).emitAll (screenDescriptorBytes width height)
  let a := if anim then a.emitAll (loopExtensionBytes loopCount) else a
  a.setCa { a.units.ca with state := .stream }

/-- GIF_BEGIN (R183). -/
def execGifBegin (width height : Half) (anim : Bool) (s : State) :
    Host.Outcome State Fault Refusal :=
  perform 0x40
    (fun u => [(u.ca.state ≠ .idle && u.ca.state ≠ .done, .caSequence), sizeFits width height,
      lzwNotMatch u, bpNotOpen u, sbIsEmpty u])
    (gifBegin width height anim s.loopCount) s

/-- The operation of FRAME_BEGIN (R187): the frame's registers, the graphics-control extension, the
image descriptor. -/
def frameBegin (width height delay : Half) (ncolors : BitVec 9) (a : Act) : Act :=
  let depth := BitVec.ofNat 4 (depthOf ncolors.toNat)
  ((a.emitAll (gceBytes delay)).emitAll (imageDescriptorBytes width height depth)).setCa
    { state := .palette, ncolors := ncolors, depth := depth, palcount := 0 }

/-- FRAME_BEGIN (R187). -/
def execFrameBegin (width height delay : Half) (ncolors : BitVec 9) (s : State) :
    Host.Outcome State Fault Refusal :=
  perform 0x41 (fun u => [caIs .stream u, sizeFits width height])
    (frameBegin width height delay ncolors) s

/-- The operation of PAL (R190): the entry; after the last one the padding copies. -/
def palEntry (r g b : Byte) (a : Act) : Act :=
  let ca := { a.units.ca with palcount := a.units.ca.palcount + 1 }
  let a := a.emitAll [r, g, b]
  if ca.palcount = ca.ncolors then
    (a.emitAll (paddingBytes ca r g b)).setCa { ca with state := .lctDone }
  else a.setCa ca

/-- PAL (R190). -/
def execPal (r g b : Byte) (s : State) : Host.Outcome State Fault Refusal :=
  perform 0x42 (fun u => [caIs .palette u]) (palEntry r g b) s

/-- The operation of DATA_BEGIN (R192): the minimum code size as one byte, a fresh BP session, a
fresh LZW session. -/
def dataBegin (a : Act) : Act :=
  let n := minCodeSize a.units.ca.depth
  let a := lzwInit n (bpOpen (a.emit (n.setWidth 8)))
  a.setCa { a.units.ca with state := .pixels }

/-- DATA_BEGIN (R192). -/
def execDataBegin (s : State) : Host.Outcome State Fault Refusal :=
  perform 0x43 (fun u => [caIs .lctDone u]) dataBegin s

/-- PIXEL (R193). -/
def execPixel (byte : Byte) (s : State) : Host.Outcome State Fault Refusal :=
  perform 0x44 (fun u => [caIs .pixels u, symbolFits byte u]) (lzwEncode byte) s

/-- The terminator of FRAME_END (R195): one more flush, unless the chunk just written was empty. -/
def terminate (a : Act) : Act :=
  if a.units.sb.lastLen ≠ 0 then sbFlush a else a

/-- The operation of FRAME_END (R194). -/
def frameEnd (a : Act) : Act :=
  let a := sbClose (terminate (lzwFlush a))
  a.setCa { a.units.ca with state := .stream }

/-- FRAME_END (R194). -/
def execFrameEnd (s : State) : Host.Outcome State Fault Refusal :=
  perform 0x45 (fun u => [caIs .pixels u]) frameEnd s

/-- The operation of GIF_END (R196): the trailer. -/
def gifEnd (a : Act) : Act :=
  (a.emit trailerByte).setCa { a.units.ca with state := .done }

/-- GIF_END (R196). -/
def execGifEnd (s : State) : Host.Outcome State Fault Refusal :=
  perform 0x46 (fun u => [caIs .stream u]) gifEnd s

end Sys2Proof.Machine
end

