-- ==== Sys2Proof/Machine/SubBlock.lean ====
section
/-!
DEFINITION. Machine/SubBlock.lean: the commands of the Sub-block Writer (40_subblock_writer.md R103 to R105).
-/

namespace Sys2Proof.Machine

/-- SB_PUSH (R103). -/
def execSbPush (byte : Byte) (s : State) : Host.Outcome State Fault Refusal :=
  perform 0x10 (fun u => [unitAccess u]) (sbPush byte) s

/-- SB_FLUSH (R104). -/
def execSbFlush (s : State) : Host.Outcome State Fault Refusal :=
  perform 0x11 (fun u => [unitAccess u]) sbFlush s

/-- SB_CLOSE (R105). -/
def execSbClose (s : State) : Host.Outcome State Fault Refusal :=
  perform 0x12 (fun u => [unitAccess u]) sbClose s

end Sys2Proof.Machine
end

