-- ==== Sys2Proof/Machine/Dispatch.lean ====
section
/-!
DEFINITION. Machine/Dispatch.lean: one arm per command (30_encoding.md R83).
-/

namespace Sys2Proof.Machine

def exec (i : Instr) (s : State) : Host.Outcome State Fault Refusal :=
  match i with
  | .sbPush byte => Sys2Proof.Machine.execSbPush byte s
  | .sbFlush => Sys2Proof.Machine.execSbFlush s
  | .sbClose => Sys2Proof.Machine.execSbClose s
  | .bpOpen => Sys2Proof.Machine.execBpOpen s
  | .bpInsert width value => Sys2Proof.Machine.execBpInsert width value s
  | .bpFlush => Sys2Proof.Machine.execBpFlush s
  | .lzwInit n => Sys2Proof.Machine.execLzwInit n s
  | .lzwEncode byte => Sys2Proof.Machine.execLzwEncode byte s
  | .lzwFlush => Sys2Proof.Machine.execLzwFlush s
  | .gifBegin width height anim => Sys2Proof.Machine.execGifBegin width height anim s
  | .frameBegin width height delay ncolors => Sys2Proof.Machine.execFrameBegin width height delay ncolors s
  | .pal r g b => Sys2Proof.Machine.execPal r g b s
  | .dataBegin => Sys2Proof.Machine.execDataBegin s
  | .pixel byte => Sys2Proof.Machine.execPixel byte s
  | .frameEnd => Sys2Proof.Machine.execFrameEnd s
  | .gifEnd => Sys2Proof.Machine.execGifEnd s

end Sys2Proof.Machine
end

