-- ==== Sys2Proof/Machine/Sequencer.lean ====
section
/-!
DEFINITION. Machine/Sequencer.lean: the command sequencer, the one agent that executes steps
(10_state.md R20, 20_memory.md R70, R72), and the reset input (70_reset_and_hazards.md R250).
-/

namespace Sys2Proof.Machine

/-- A command word at the command port: decoded, then run; an illegal word faults (R85, R86). -/
def present (w : CmdWord) (s : State) : Host.Outcome State Fault Refusal :=
  match decode w with
  | some i => exec i s
  | none => illegalWord w s

/-- One step: the host's next event. With none the hardware waits (R39, R259). -/
def advance (s : State) : Host.Outcome State Fault Refusal :=
  match s.host with
  | [] => .next s
  | .reset :: events => .next (hardReset { s with host := events })
  | .command w :: events => present w { s with host := events }

end Sys2Proof.Machine
end

