-- ==== Sys2Proof/Machine/Step.lean ====
section
/-!
DEFINITION. Machine/Step.lean: the step of the machine, and the state in which the host presents a
given word next.
-/

namespace Sys2Proof.Machine

/-- One step of the machine (R5, R70). -/
def step (s : State) : Host.Outcome State Fault Refusal := advance s

/-- `s` with the host about to present the word `w` (the hardware stores no program, R22, R72; log 2). -/
def State.withFetchWord (s : State) (nbits w : Nat) : State :=
  { s with host := .command (BitVec.ofNat 64 (w % 2 ^ nbits)) :: s.host }

end Sys2Proof.Machine
end

