-- ==== Sys2Proof/Safety.lean ====
section
/-!
DEFINITION. Safety.lean: the terms claims use: when a command can run, the invariants of the registers
(10_state.md), the opcode and check tables as the spec prints them (30_encoding.md section 2,
60_exceptions.md R222), and the bytes and bits the buffers stand for, by arithmetic on numbers and
lists that does not use the machine's own operations.
-/

namespace Sys2Proof.Machine

/-! ## When a command runs, and with what sink -/

/-- No command in progress and no fault: the next word presented is decoded and run. -/
abbrev Ready (s : State) : Prop := s.offered = none ∧ s.faultRegs.flt = false

/-- The sink accepts the next `n` bytes offered (U2). -/
abbrev SinkTakes (s : State) (n : Nat) : Prop := ∀ x ∈ s.sink.take n, x = SinkAnswer.accept

/-- The host may use the units directly (R230). -/
abbrev UnitAccess (u : Units) : Prop := u.ca.state = .idle ∨ u.ca.state = .done

/-- The spec says what the unit registers hold: no command is in progress and the fault, if any, is
not SINK_ERROR (R227, U1, U9). -/
abbrev Specified (s : State) : Prop :=
  s.offered = none ∧ ¬(s.faultRegs.flt = true ∧ s.faultRegs.cause = 10)

/-- A run that ends here has produced a complete GIF stream (R259). -/
abbrev CompleteStream (s : State) : Prop :=
  s.offered = none ∧ s.faultRegs.flt = false ∧ s.units.ca.state = .done

/-- The commands of a list run one after the other from `s` to `t` (R70). -/
def Runs : List Instr → State → State → Prop
  | [], s, t => s = t
  | i :: is, s, u => ∃ t, exec i s = .next t ∧ Runs is t u

/-! ## Invariants of the registers, true between commands -/

/-- SB (10_state.md section 3): at most 254 bytes wait. -/
abbrev Sb.Ok (sb : Sb) : Prop := sb.buf.length ≤ 254

/-- BP (10_state.md section 4): at most 7 bits wait, the bits above them are 0, and outside a session
there are none. -/
abbrev Bp.Ok (bp : Bp) : Prop :=
  bp.nbits.toNat ≤ 7 ∧ bp.acc.toNat < 2 ^ bp.nbits.toNat ∧
  (bp.state ≠ .opened → bp.nbits = 0 ∧ bp.acc = 0)

/-- Every literal is a key and stands for itself (R28). -/
abbrev Dict.HasLiterals (d : Dict) (s : Nat) : Prop :=
  ∀ k < 2 ^ s, Dict.lookup d [BitVec.ofNat 8 k] = some (BitVec.ofNat 12 k)

/-- A key of two or more symbols without its last symbol is a key (10_state.md section 5, item 3). -/
abbrev Dict.PrefixClosed (d : Dict) : Prop :=
  ∀ e ∈ d, 2 ≤ e.1.length → (Dict.lookup d e.1.dropLast).isSome = true

/-- The codes in use, in order: the literals, then one for each code from `2^s + 2` up to `next`
(10_state.md section 5, item 2). -/
def codesInUse (s next : Nat) : List Nat :=
  List.range (2 ^ s) ++ (List.range (next - (2 ^ s + 2))).map (fun j => 2 ^ s + 2 + j)

/-- An LZW session (10_state.md section 5, items 1 to 5). -/
abbrev Lzw.SessionOk (z : Lzw) : Prop :=
  (2 ≤ z.s.toNat ∧ z.s.toNat ≤ 8) ∧
  (z.s.toNat + 1 ≤ z.width.toNat ∧ z.width.toNat ≤ 12) ∧
  (2 ^ z.s.toNat + 2 ≤ z.next.toNat ∧ z.next.toNat ≤ 4096) ∧
  Dict.wf z.dict = true ∧
  z.dict.map (fun e => e.2.toNat) = codesInUse z.s.toNat z.next.toNat ∧
  Dict.HasLiterals z.dict z.s.toNat ∧
  Dict.PrefixClosed z.dict ∧
  (z.matched ≠ [] → (Dict.lookup z.dict z.matched).isSome = true) ∧
  (z.matched = [] → z.dict = Dict.seed z.s ∧ z.next.toNat = 2 ^ z.s.toNat + 2) ∧
  (z.next.toNat = 2 ^ z.s.toNat + 2 → z.width.toNat = z.s.toNat + 1) ∧
  z.next.toNat - 1 < 2 ^ z.width.toNat ∧
  (z.width.toNat = z.s.toNat + 1 ∨ 2 ^ (z.width.toNat - 1) ≤ z.next.toNat - 1)

/-- LZW: the session's invariants while there is one. -/
abbrev Lzw.Ok (z : Lzw) : Prop := z.state = .matching → z.SessionOk

/-- CA (10_state.md section 6), and the frame's palette size and depth (R31, R187). -/
abbrev Units.CaOk (u : Units) : Prop :=
  ((u.ca.state = .stream ∨ u.ca.state = .palette ∨ u.ca.state = .lctDone) →
    u.lzw.state ≠ .matching ∧ u.bp.state ≠ .opened ∧ u.sb.buf = []) ∧
  (u.ca.state = .pixels →
    u.lzw.state = .matching ∧ u.bp.state = .opened ∧ u.lzw.s.toNat = max 2 u.ca.depth.toNat) ∧
  (u.ca.state = .palette → u.ca.palcount.toNat < u.ca.ncolors.toNat) ∧
  ((u.ca.state = .palette ∨ u.ca.state = .lctDone ∨ u.ca.state = .pixels) →
    1 ≤ u.ca.ncolors.toNat ∧ u.ca.ncolors.toNat ≤ 256 ∧
    u.ca.depth.toNat = depthOf u.ca.ncolors.toNat)

/-- The invariants of all unit registers. -/
abbrev Units.Ok (u : Units) : Prop := u.sb.Ok ∧ u.bp.Ok ∧ u.lzw.Ok ∧ u.CaOk

/-- The fault registers (R33, R221): no cause and no opcode without a fault, one of the ten causes
with one. -/
abbrev FaultRegs.Ok (f : FaultRegs) : Prop :=
  (f.flt = false → f.cause = 0 ∧ f.op = 0) ∧
  (f.flt = true → 1 ≤ f.cause.toNat ∧ f.cause.toNat ≤ 10)

/-- The invariant of the machine: the fault registers always; no fault while a command is in
progress; the unit registers whenever the spec says what they hold. -/
abbrev State.Inv (s : State) : Prop :=
  s.faultRegs.Ok ∧ (s.offered ≠ none → s.faultRegs.flt = false) ∧ (Specified s → s.units.Ok)

/-! ## The spec's tables -/

/-- One row of the opcode table of 30_encoding.md section 2: opcode, match, mask. -/
structure OpcodeRow where
  opcode : Nat
  mtch   : CmdWord
  mask   : CmdWord
  deriving DecidableEq, Repr

/-- The sixteen rows. -/
def opcodeRows : List OpcodeRow := [
  ⟨0x10, 0x1000000000000000, 0xFFFFFFFFFFFFFF00⟩,
  ⟨0x11, 0x1100000000000000, 0xFFFFFFFFFFFFFFFF⟩,
  ⟨0x12, 0x1200000000000000, 0xFFFFFFFFFFFFFFFF⟩,
  ⟨0x20, 0x2000000000000000, 0xFFFFFFFFFFFFFFFF⟩,
  ⟨0x21, 0x2100000000000000, 0xFFFFFFFFFFE00000⟩,
  ⟨0x22, 0x2200000000000000, 0xFFFFFFFFFFFFFFFF⟩,
  ⟨0x30, 0x3000000000000000, 0xFFFFFFFFFFFFFFF0⟩,
  ⟨0x31, 0x3100000000000000, 0xFFFFFFFFFFFFFF00⟩,
  ⟨0x32, 0x3200000000000000, 0xFFFFFFFFFFFFFFFF⟩,
  ⟨0x40, 0x4000000000000000, 0xFFFFFFFE00000000⟩,
  ⟨0x41, 0x4100000000000000, 0xFF00000000000000⟩,
  ⟨0x42, 0x4200000000000000, 0xFFFFFFFFFF000000⟩,
  ⟨0x43, 0x4300000000000000, 0xFFFFFFFFFFFFFFFF⟩,
  ⟨0x44, 0x4400000000000000, 0xFFFFFFFFFFFFFF00⟩,
  ⟨0x45, 0x4500000000000000, 0xFFFFFFFFFFFFFFFF⟩,
  ⟨0x46, 0x4600000000000000, 0xFFFFFFFFFFFFFFFF⟩]

/-- `cmd & mask = match`. -/
abbrev OpcodeRow.Selects (r : OpcodeRow) (w : CmdWord) : Prop := w &&& r.mask = r.mtch

/-- The row of R222 for a command: each cause it can raise by its checks, with its condition. -/
def checkRow (i : Instr) (u : Units) : List (Nat × Prop) :=
  match i with
  | .sbPush _ | .sbFlush | .sbClose => [(2, ¬UnitAccess u)]
  | .bpOpen => [(2, ¬UnitAccess u), (7, u.bp.state = .opened)]
  | .bpInsert width _ =>
      [(2, ¬UnitAccess u), (7, u.bp.state ≠ .opened), (8, ¬(1 ≤ width.toNat ∧ width.toNat ≤ 16))]
  | .bpFlush => [(2, ¬UnitAccess u), (7, u.bp.state ≠ .opened)]
  | .lzwInit n =>
      [(2, ¬UnitAccess u), (4, u.lzw.state = .matching), (5, ¬(2 ≤ n.toNat ∧ n.toNat ≤ 8)),
       (7, u.bp.state ≠ .opened)]
  | .lzwEncode k =>
      [(2, ¬UnitAccess u), (4, u.lzw.state ≠ .matching), (6, 2 ^ u.lzw.s.toNat ≤ k.toNat),
       (7, u.bp.state ≠ .opened)]
  | .lzwFlush => [(2, ¬UnitAccess u), (4, u.lzw.state ≠ .matching), (7, u.bp.state ≠ .opened)]
  | .gifBegin width height _ =>
      [(2, ¬UnitAccess u), (3, width = 0 ∨ height = 0), (4, u.lzw.state = .matching),
       (7, u.bp.state = .opened), (9, u.sb.buf.length ≠ 0)]
  | .frameBegin width height _ _ =>
      [(2, u.ca.state ≠ .stream), (3, width = 0 ∨ height = 0)]
  | .pal _ _ _ => [(2, u.ca.state ≠ .palette)]
  | .dataBegin => [(2, u.ca.state ≠ .lctDone)]
  | .pixel k => [(2, u.ca.state ≠ .pixels), (6, 2 ^ u.lzw.s.toNat ≤ k.toNat)]
  | .frameEnd => [(2, u.ca.state ≠ .pixels)]
  | .gifEnd => [(2, u.ca.state ≠ .stream)]

/-- The check of cause `c` fails for the command. -/
def Violates (i : Instr) (u : Units) (c : Nat) : Prop := ∃ p, (c, p) ∈ checkRow i u ∧ p

/-- Every check of the command passes. -/
def Passes (i : Instr) (u : Units) : Prop := ∀ c, ¬Violates i u c

/-! ## Bits and bytes by arithmetic -/

/-- The low `w` bits of `v`, oldest first (R62). -/
def bitsLow (w v : Nat) : List Bool := (List.range w).map v.testBit

/-- The number and the count of the bits held after codes `(width, value)` join the `n` bits of `a`,
each above the ones before it (R62, R120). -/
def joinCodes : Nat × Nat → List (Nat × Nat) → Nat × Nat
  | h, [] => h
  | (a, n), (w, v) :: codes => joinCodes (a + v % 2 ^ w * 2 ^ n, n + w) codes

/-- The whole bytes of the `n` bits of `a`, low byte first (R120). -/
def wholeBytes (a n : Nat) : List Byte :=
  (List.range (n / 8)).map (fun j => BitVec.ofNat 8 (a / 2 ^ (8 * j)))

/-- What is left of the `n` bits of `a` when the whole bytes have gone. -/
def restBits (a n : Nat) : Nat := a / 2 ^ (8 * (n / 8))

/-- The chunk that leaves SB when `bytes` join the buffer: the 256 bytes of a full chunk, or nothing
(R101). It is meant for fewer than 256 more bytes. -/
def chunkOut (sb : Sb) (bytes : List Byte) : List Byte :=
  if (sb.buf ++ bytes).length < 255 then [] else 0xFF :: (sb.buf ++ bytes).take 255

/-- SB after `bytes` have joined the buffer. -/
def chunkRest (sb : Sb) (bytes : List Byte) : Sb :=
  if (sb.buf ++ bytes).length < 255 then { sb with buf := sb.buf ++ bytes }
  else { buf := (sb.buf ++ bytes).drop 255, lastLen := 255 }

/-- The whole bytes that leave BP when codes join it. -/
def codeBytes (bp : Bp) (codes : List (Nat × Nat)) : List Byte :=
  let h := joinCodes (bp.acc.toNat, bp.nbits.toNat) codes
  wholeBytes h.1 h.2

/-- The bytes `out` gains when codes are written through BP and SB. -/
def codesOut (u : Units) (codes : List (Nat × Nat)) : List Byte := chunkOut u.sb (codeBytes u.bp codes)

/-- The registers after codes have been written through BP and SB. -/
def codesRest (u : Units) (codes : List (Nat × Nat)) : Units :=
  let h := joinCodes (u.bp.acc.toNat, u.bp.nbits.toNat) codes
  { u with
    bp := { u.bp with acc := BitVec.ofNat 32 (restBits h.1 h.2), nbits := BitVec.ofNat 5 (h.2 % 8) }
    sb := chunkRest u.sb (codeBytes u.bp codes) }

/-- The bytes that leave BP when codes are written and BP is flushed: the last one padded (R121). -/
def finalBytes (bp : Bp) (codes : List (Nat × Nat)) : List Byte :=
  let h := joinCodes (bp.acc.toNat, bp.nbits.toNat) codes
  wholeBytes h.1 h.2 ++ (if h.2 % 8 = 0 then [] else [BitVec.ofNat 8 (restBits h.1 h.2)])

/-- The last chunk: the length byte and what SB holds (R100). -/
def lastChunk (sb : Sb) : List Byte := BitVec.ofNat 8 sb.buf.length :: sb.buf

/-- The bytes `out` gains when codes are written and BP is flushed (R121). -/
def flushOut (u : Units) (codes : List (Nat × Nat)) : List Byte :=
  chunkOut u.sb (finalBytes u.bp codes) ++ lastChunk (chunkRest u.sb (finalBytes u.bp codes))

/-- The registers after codes have been written and BP has been flushed (R121). -/
def flushRest (u : Units) (codes : List (Nat × Nat)) : Units :=
  { u with
    bp := { acc := 0, nbits := 0, state := .flushed }
    sb := { buf := [], lastLen := BitVec.ofNat 8 (chunkRest u.sb (finalBytes u.bp codes)).buf.length } }

/-- The full chunks of a payload: 0xFF and 255 bytes each (40_subblock_writer.md section 3). -/
def fullChunks (payload : List Byte) : List Byte :=
  (List.range (payload.length / 255)).flatMap (fun j => 0xFF :: (payload.drop (255 * j)).take 255)

/-- The bytes of a payload after its full chunks. -/
def chunkTail (payload : List Byte) : List Byte := payload.drop (255 * (payload.length / 255))

/-- A payload pushed into an empty SB and flushed: full chunks, then the rest behind its length,
which is the one byte 0x00 when nothing is left (40_subblock_writer.md section 3). -/
def chunked (payload : List Byte) : List Byte :=
  fullChunks payload ++ BitVec.ofNat 8 (chunkTail payload).length :: chunkTail payload

/-- The image data of one frame after its first byte: full chunks, a last chunk if anything is left,
then one byte 0x00 (R195). -/
def dataBlock (payload : List Byte) : List Byte :=
  fullChunks payload ++
  (if chunkTail payload = [] then []
   else BitVec.ofNat 8 (chunkTail payload).length :: chunkTail payload) ++ [0x00]

/-- What LZW_ENCODE or PIXEL needs before its operation (R148, R193): the checks of the one or the
other, for the symbol `k`. -/
def EncodeReady (i : Instr) (k : Byte) (u : Units) : Prop :=
  k.toNat < 2 ^ u.lzw.s.toNat ∧
  ((i = .lzwEncode k ∧ UnitAccess u ∧ u.lzw.state = .matching ∧ u.bp.state = .opened) ∨
   (i = .pixel k ∧ u.ca.state = .pixels))

/-- The codes of LZWFlush (R146): that of the matched buffer when it is not empty, and EOI. -/
def closingCodes (z : Lzw) (c : Code) : List (Nat × Nat) :=
  (if z.matched = [] then [] else [(z.width.toNat, c.toNat)]) ++
  [(z.width.toNat, 2 ^ z.s.toNat + 1)]

/-- The most bytes a command adds to `out` (70_reset_and_hazards.md section 3). -/
def workBound : Instr → Nat
  | .sbPush _ | .pixel _ | .lzwEncode _ | .bpInsert _ _ | .lzwInit _ => 256
  | .sbFlush | .sbClose => 255
  | .bpFlush => 257
  | .lzwFlush => 260
  | .frameEnd => 261
  | .pal _ _ _ => 384
  | .dataBegin => 1
  | .gifBegin _ _ anim => if anim then 32 else 13
  | .frameBegin _ _ _ _ => 18
  | .gifEnd => 1
  | .bpOpen => 0

end Sys2Proof.Machine
end

