-- ==== Sys2Proof/Certificates/Slice0/Obligations.lean ====
section
/-!
DEFINITION. Certificates/Slice0/Obligations.lean: the statements for the provers. Each docstring names
the rule of spec/ it formalises, or the section an inference of the spec stands in.
-/

open Sys2Proof Sys2Proof.Machine

/-! ## Encoding -/

/-- The worked encodings of 30_encoding.md section 4, one per format: each command has the printed
word, and the word decodes to the command. -/
def Obligations.WorkedWordsEncodeAndDecode : Prop :=
  ∀ p ∈ ([(.sbFlush, 0x1100000000000000), (.pixel 3, 0x4400000000000003),
      (.bpInsert 3 4, 0x2100000000030004), (.lzwInit 8, 0x3000000000000008),
      (.gifBegin 3 1 true, 0x4000000100010003), (.frameBegin 2 2 0 4, 0x4103000000020002),
      (.pal 0x10 0x20 0x30, 0x4200000000302010)] : List (Instr × CmdWord)),
    encode p.1 = p.2 ∧ decode p.2 = some p.1

/-- R81, R82, R83: the command read from a word has its opcode in bits 63:56 and every operand is the
unsigned value of its field, `ncolors` the value of `ncm1` plus 1. -/
def Obligations.OperandsAreTheirFields : Prop :=
  ∀ (w : CmdWord) (i : Instr), decode w = some i →
    i.opcode.toNat = w.toNat / 2 ^ 56 ∧
    match i with
    | .sbPush b | .lzwEncode b | .pixel b => b.toNat = w.toNat % 2 ^ 8
    | .bpInsert width value =>
        value.toNat = w.toNat % 2 ^ 16 ∧ width.toNat = w.toNat / 2 ^ 16 % 2 ^ 5
    | .lzwInit n => n.toNat = w.toNat % 2 ^ 4
    | .gifBegin width height anim =>
        width.toNat = w.toNat % 2 ^ 16 ∧ height.toNat = w.toNat / 2 ^ 16 % 2 ^ 16 ∧
        anim.toNat = w.toNat / 2 ^ 32 % 2
    | .frameBegin width height delay ncolors =>
        width.toNat = w.toNat % 2 ^ 16 ∧ height.toNat = w.toNat / 2 ^ 16 % 2 ^ 16 ∧
        delay.toNat = w.toNat / 2 ^ 32 % 2 ^ 16 ∧ ncolors.toNat = w.toNat / 2 ^ 48 % 2 ^ 8 + 1
    | .pal r g b =>
        r.toNat = w.toNat % 2 ^ 8 ∧ g.toNat = w.toNat / 2 ^ 8 % 2 ^ 8 ∧
        b.toNat = w.toNat / 2 ^ 16 % 2 ^ 8
    | .sbFlush | .sbClose | .bpOpen | .bpFlush | .lzwFlush | .dataBegin | .frameEnd | .gifEnd => True

/-- 30_encoding.md section 2, "A word `cmd` selects a command when `cmd & mask = match`", and
section 3, "for every 64-bit word the decoder answers exactly one of the sixteen commands [...] or
illegal": the decoder answers the command of the row that selects the word, nothing when no row
does, and no word is selected by two rows. -/
def Obligations.DecodeFollowsMatchAndMask : Prop :=
  ∀ w : CmdWord,
    (∀ r ∈ opcodeRows, r.Selects w → ∃ i, decode w = some i ∧ i.opcode.toNat = r.opcode) ∧
    ((∀ r ∈ opcodeRows, ¬r.Selects w) → decode w = none) ∧
    (∀ r ∈ opcodeRows, ∀ r' ∈ opcodeRows, r.Selects w → r'.Selects w → r = r')

/-- Every well-formed command, with every operand at every value its field holds, is read back from
its word (R81, R82, R83). -/
def Obligations.DecodeOfEncodeIsIdentity : Prop :=
  ∀ i : Instr, i.wellFormed = true → decode (encode i) = some i

/-- The other direction: a word that decodes is the word of the command read, so no bit of it is
ignored, and that command is well formed. -/
def Obligations.DecodedWordIsItsEncoding : Prop :=
  ∀ (w : CmdWord) (i : Instr), decode w = some i → i.wellFormed = true ∧ encode i = w

/-! ## The step and reset -/

/-- A step takes the word at the head of the host's events and runs the command it decodes to, on the
state from which that word has been taken; nothing else is added (R5, R70). The queue of host events
is the model's (log 1). -/
def Obligations.StepRunsDecodedCommand : Prop :=
  ∀ (s : State) (w : CmdWord) (events : List HostEvent) (i : Instr),
    s.host = .command w :: events → decode w = some i →
    step s = exec i { s with host := events }

/-- "After reset the hardware waits for a command" (10_state.md section 10): with no event pending a
step changes nothing. That a wait is a step of its own is the model's choice (log 1). -/
def Obligations.StepWaitsWithoutEvent : Prop :=
  ∀ s : State, s.host = [] → step s = .next s

/-- R39: what reset leaves, from every state, also in the middle of a command and in the faulted
state: each register at the value of the table, `STATUS` 0, `out` not changed (and empty at the start
of a run). -/
def Obligations.ResetGivesTheResetValues : Prop :=
  (∀ (s : State) (events : List HostEvent), s.host = .reset :: events →
    ∃ t, step s = .next t ∧
      t = { s with
        units := {
          sb  := { buf := [], lastLen := 0 }
          bp  := { acc := 0, nbits := 0, state := .idle }
          lzw := { state := .idle, s := 0, width := 0, next := 0, dict := [], matched := [] }
          ca  := { state := .idle, ncolors := 0, depth := 0, palcount := 0 } }
        faultRegs := { flt := false, cause := 0, op := 0 }
        offered := none
        host := events } ∧
      statusPort t = 0) ∧
  State.reset.out = [] ∧ statusPort State.reset = 0

/-- R34, R35: the fields of the status word between commands. -/
def Obligations.StatusWordHasTheseFields : Prop :=
  ∀ s : State, s.offered = none → s.units.sb.buf.length ≤ 255 →
    let st := (statusPort s).toNat
    (st % 2 = if s.faultRegs.flt then 1 else 0) ∧
    st / 2 % 2 ^ 4 = s.faultRegs.cause.toNat ∧
    st / 2 ^ 5 % 2 ^ 8 = s.faultRegs.op.toNat ∧
    (st / 2 ^ 13 % 2 ^ 3 = match s.units.ca.state with
      | .idle => 0 | .stream => 1 | .palette => 2 | .lctDone => 3 | .pixels => 4 | .done => 5) ∧
    (st / 2 ^ 16 % 2 ^ 2 = match s.units.lzw.state with
      | .idle => 0 | .matching => 1 | .flushed => 2) ∧
    (st / 2 ^ 18 % 2 ^ 2 = match s.units.bp.state with
      | .idle => 0 | .opened => 1 | .flushed => 2) ∧
    st / 2 ^ 20 % 2 ^ 4 = s.units.lzw.width.toNat ∧
    st / 2 ^ 24 = s.units.sb.buf.length

/-! ## Faults -/

/-- R85: an illegal word, one that no row of the opcode table selects, raises ILLEGAL_CMD with its
top byte as opcode, and has no other effect. -/
def Obligations.IllegalWordRaisesIllegalCmd : Prop :=
  ∀ (s : State) (w : CmdWord) (events : List HostEvent),
    Ready s → s.host = .command w :: events → (∀ r ∈ opcodeRows, ¬r.Selects w) →
    step s = .next { s with
      faultRegs := { flt := true, cause := 1, op := BitVec.ofNat 8 (w.toNat / 2 ^ 56) }
      host := events }

/-- R222, R223, R224: when checks of a command fail, the fault raised is the one with the lowest
cause code; it sets the three fault registers, the opcode byte being that of the command's word, and
changes nothing else and emits nothing. -/
def Obligations.LowestFailingCauseIsRaised : Prop :=
  ∀ (s : State) (i : Instr) (c : Nat), Ready s → Violates i s.units c →
    (∀ c', Violates i s.units c' → c ≤ c') →
    exec i s = .next { s with
      faultRegs := { flt := true, cause := BitVec.ofNat 4 c,
                     op := BitVec.ofNat 8 ((encode i).toNat / 2 ^ 56) } }

/-- R225: in the faulted state every word presented, legal or not, is taken and discarded; nothing
changes, the first fault is kept, and the command port stays ready. -/
def Obligations.FaultedStateDiscardsEveryWord : Prop :=
  ∀ (s : State) (w : CmdWord) (events : List HostEvent),
    s.offered = none → s.faultRegs.flt = true → s.host = .command w :: events →
    step s = .next { s with host := events } ∧ cmdReady { s with host := events } = true

/-- R226: the only way to leave the faulted state is reset, which empties every buffer and closes every
session; bytes already in `out` stay there; and a fault does not nest. -/
def Obligations.OnlyResetLeavesTheFaultedState : Prop :=
  ∀ s t : State, s.faultRegs.flt = true → step s = .next t →
    t.out = s.out ∧
    (t.faultRegs.flt = false ↔ ∃ events, s.host = .reset :: events) ∧
    (t.faultRegs.flt = false → t.units = State.reset.units) ∧
    (t.faultRegs.flt = true → t.faultRegs = s.faultRegs ∧ t.units = s.units)

/-- R227: when the sink fails on the byte number `k` of those a command would write to a sink that
accepts, the bytes before it are in `out`, it is not, and SINK_ERROR is recorded with the command's
opcode. Nothing is said of the unit registers, which are then unspecified. -/
def Obligations.SinkFailureRaisesSinkError : Prop :=
  ∀ (s t : State) (i : Instr) (bytes : List Byte) (k : Nat) (left : List SinkAnswer),
    Ready s → Passes i s.units →
    exec i { s with sink := [] } = .next t → t.out = s.out ++ bytes → k < bytes.length →
    ∃ t', exec i { s with sink := List.replicate k .accept ++ .fail :: left } = .next t' ∧
      t'.out = s.out ++ bytes.take k ∧
      t'.faultRegs = { flt := true, cause := 10, op := i.opcode } ∧
      t'.offered = none ∧ t'.sink = left ∧ t'.host = s.host ∧ t'.loopCount = s.loopCount

/-- R250, R261: when the sink never answers byte number `k`, the command stays in progress with that
byte offered and `cmd_ready` 0; a reset then abandons it where it stands, withdraws the byte, keeps
the bytes before it in `out`, and puts every register at its reset value. How a reset lands inside a
command is the model's reading of R250 (log 5). -/
def Obligations.ResetAbandonsTheCommandInProgress : Prop :=
  ∀ (s t : State) (i : Instr) (bytes : List Byte) (k : Nat) (left : List SinkAnswer)
    (events : List HostEvent),
    Ready s → Passes i s.units →
    exec i { s with sink := [] } = .next t → t.out = s.out ++ bytes → k < bytes.length →
    ∃ t', exec i { s with sink := List.replicate k .accept ++ .stall :: left } = .next t' ∧
      t'.offered = bytes[k]? ∧ cmdReady t' = false ∧ t'.out = s.out ++ bytes.take k ∧
      ∃ u, step { t' with host := .reset :: events } = .next u ∧
        u.out = s.out ++ bytes.take k ∧ u.offered = none ∧ cmdReady u = true ∧
        u.units = State.reset.units ∧ u.faultRegs = State.reset.faultRegs

/-- R261: while a command waits for a sink that never answers, a word presented is not taken: the
model stops there by name (U8 calls it stuck). -/
def Obligations.CommandBehindSilentSinkIsStuck : Prop :=
  ∀ (s : State) (b : Byte) (w : CmdWord) (events : List HostEvent),
    s.offered = some b → s.host = .command w :: events → step s = .fault .sinkNeverAnswers

/-! ## Every command completes -/

/-- R10, R223: a command whose checks all pass, with a sink that accepts, completes: it answers a next
state without a fault, with no byte left offered, and only adds bytes to `out`. For each of the
sixteen commands. -/
def Obligations.PassingCommandCompletes : Prop :=
  ∀ (s : State) (i : Instr), Ready s → Passes i s.units → (∀ x ∈ s.sink, x = .accept) →
    ∃ t bytes, exec i s = .next t ∧ t.faultRegs = s.faultRegs ∧ t.offered = none ∧
      t.host = s.host ∧ t.loopCount = s.loopCount ∧ t.freeCount = s.freeCount ∧
      t.out = s.out ++ bytes ∧ t.sink = s.sink.drop bytes.length

/-! ## Sub-block Writer -/

/-- SB_PUSH (R101, R103): below 254 waiting bytes the byte joins them; with 254 the 256 bytes of a
full chunk leave in the same step. Nothing else changes. -/
def Obligations.SbPushBuffersOrWritesFullChunk : Prop :=
  ∀ (s : State) (b : Byte), Ready s → UnitAccess s.units →
    (s.units.sb.buf.length < 254 →
      exec (.sbPush b) s = .next { s with
        units := { s.units with sb := { s.units.sb with buf := s.units.sb.buf ++ [b] } } }) ∧
    (s.units.sb.buf.length = 254 → SinkTakes s 256 →
      exec (.sbPush b) s = .next { s with
        units := { s.units with sb := { buf := [], lastLen := 255 } }
        out := s.out ++ (0xFF :: s.units.sb.buf ++ [b])
        sink := s.sink.drop 256 })

/-- SB_FLUSH (R100, R104): the length byte and the payload, also when there is none, and SB is empty
with the length recorded. Nothing else changes. -/
def Obligations.SbFlushWritesOneChunk : Prop :=
  ∀ s : State, Ready s → UnitAccess s.units → s.units.sb.buf.length ≤ 254 →
    SinkTakes s (s.units.sb.buf.length + 1) →
    exec .sbFlush s = .next { s with
      units := { s.units with
        sb := { buf := [], lastLen := BitVec.ofNat 8 s.units.sb.buf.length } }
      out := s.out ++ (BitVec.ofNat 8 s.units.sb.buf.length :: s.units.sb.buf)
      sink := s.sink.drop (s.units.sb.buf.length + 1) }

/-- SB_CLOSE (R102, R105): as SB_FLUSH when bytes wait, and nothing at all when none do. -/
def Obligations.SbCloseFlushesOnlyWhenNotEmpty : Prop :=
  ∀ s : State, Ready s → UnitAccess s.units →
    (s.units.sb.buf = [] → exec .sbClose s = .next s) ∧
    (0 < s.units.sb.buf.length → s.units.sb.buf.length ≤ 254 →
      SinkTakes s (s.units.sb.buf.length + 1) →
      exec .sbClose s = .next { s with
        units := { s.units with
          sb := { buf := [], lastLen := BitVec.ofNat 8 s.units.sb.buf.length } }
        out := s.out ++ (BitVec.ofNat 8 s.units.sb.buf.length :: s.units.sb.buf)
        sink := s.sink.drop (s.units.sb.buf.length + 1) })

/-- 40_subblock_writer.md section 3, "The bytes that SB writes for a sequence of pushes [...] followed
by one SBFlush, starting from an empty buffer": full chunks of 255 bytes, then one chunk with the
rest; so no byte is lost and no chunk exceeds 255. -/
def Obligations.PushesThenFlushWriteTheChunks : Prop :=
  ∀ (s : State) (payload : List Byte), Ready s → UnitAccess s.units → s.units.sb.buf = [] →
    s.sink = [] →
    ∃ u, Runs (payload.map Instr.sbPush ++ [.sbFlush]) s u ∧
      u = { s with
        units := { s.units with
          sb := { buf := [], lastLen := BitVec.ofNat 8 (payload.length % 255) } }
        out := s.out ++ chunked payload }

/-! ## Bit Packer -/

/-- BP_OPEN (R122): a fresh session over IDLE or FLUSHED; SB and `out` are not touched; over a live
session BP_STATE, and inside a stream CA_SEQUENCE. -/
def Obligations.BpOpenStartsFreshSession : Prop :=
  ∀ s : State, Ready s →
    (UnitAccess s.units → s.units.bp.state ≠ .opened →
      exec .bpOpen s = .next { s with
        units := { s.units with bp := { acc := 0, nbits := 0, state := .opened } } }) ∧
    (UnitAccess s.units → s.units.bp.state = .opened →
      exec .bpOpen s = .next { s with faultRegs := { flt := true, cause := 7, op := 0x20 } }) ∧
    (¬UnitAccess s.units →
      exec .bpOpen s = .next { s with faultRegs := { flt := true, cause := 2, op := 0x20 } })

/-- BP_INSERT (R120, R123): the low `width` bits of `value` join the held bits above them; whole bytes
leave to SB low byte first, and a full chunk leaves SB. Stated by arithmetic on the number held.
Nothing else changes. -/
def Obligations.BpInsertAppendsTheLowBits : Prop :=
  ∀ (s : State) (width : BitVec 5) (value : Half), Ready s → UnitAccess s.units →
    s.units.bp.state = .opened → 1 ≤ width.toNat → width.toNat ≤ 16 →
    s.units.bp.Ok → s.units.sb.Ok →
    let codes := [(width.toNat, value.toNat)]
    SinkTakes s (codesOut s.units codes).length →
    exec (.bpInsert width value) s = .next { s with
      units := codesRest s.units codes
      out := s.out ++ codesOut s.units codes
      sink := s.sink.drop (codesOut s.units codes).length }

/-- BP_FLUSH (R121, R124): the bits that remain as one zero-padded byte, then the forwarded flush of
SB, always, and the session is over. Nothing else changes. -/
def Obligations.BpFlushPadsAndForwardsTheFlush : Prop :=
  ∀ s : State, Ready s → UnitAccess s.units → s.units.bp.state = .opened →
    s.units.bp.Ok → s.units.sb.Ok → SinkTakes s (flushOut s.units []).length →
    exec .bpFlush s = .next { s with
      units := flushRest s.units []
      out := s.out ++ flushOut s.units []
      sink := s.sink.drop (flushOut s.units []).length }

/-- The source's testable property of the Bit Packer (41_bit_packer.md section 3): "insert(w, v)
followed eventually by flush() reproduces v's low w bits, bit-exact, at the correct bit offset,
LSB-first". For every list of inserts of legal widths from a fresh session over an empty SB, the
bytes written are the chunks of a payload whose bits, oldest first, are the low bits of the values in
order and then zeros up to a byte. -/
def Obligations.InsertedBitsAppearInOrder : Prop :=
  ∀ (s : State) (ins : List (BitVec 5 × Half)), Ready s → UnitAccess s.units →
    s.units.bp = { acc := 0, nbits := 0, state := .opened } → s.units.sb.buf = [] → s.sink = [] →
    (∀ p ∈ ins, 1 ≤ p.1.toNat ∧ p.1.toNat ≤ 16) →
    ∃ u payload pad, Runs (ins.map (fun p => Instr.bpInsert p.1 p.2) ++ [.bpFlush]) s u ∧
      u.out = s.out ++ chunked payload ∧ pad < 8 ∧
      payload.flatMap (fun b => bitsLow 8 b.toNat) =
        ins.flatMap (fun p => bitsLow p.1.toNat p.2.toNat) ++ List.replicate pad false

/-! ## LZW Compressor -/

/-- LZW_INIT (R140, R142, R147): the dictionary is the literals, the next code `2^s + 2`, the width
`s + 1`, the matched buffer empty, and the clear code `2^s` is written with `s + 1` bits. Nothing else
changes. -/
def Obligations.LzwInitSeedsAndWritesClearCode : Prop :=
  ∀ (s : State) (n : BitVec 4), Ready s → UnitAccess s.units → s.units.lzw.state ≠ .matching →
    2 ≤ n.toNat → n.toNat ≤ 8 → s.units.bp.state = .opened → s.units.bp.Ok → s.units.sb.Ok →
    let codes := [(n.toNat + 1, 2 ^ n.toNat)]
    SinkTakes s (codesOut s.units codes).length →
    exec (.lzwInit n) s = .next { s with
      units := { codesRest s.units codes with
        lzw := { state := .matching, s := n, width := BitVec.ofNat 4 (n.toNat + 1)
                 next := BitVec.ofNat 13 (2 ^ n.toNat + 2)
                 dict := (List.range (2 ^ n.toNat)).map
                   (fun k => ([BitVec.ofNat 8 k], BitVec.ofNat 12 k))
                 matched := [] } }
      out := s.out ++ codesOut s.units codes
      sink := s.sink.drop (codesOut s.units codes).length }

/-- LZW_ENCODE and PIXEL, a hit (R143, R148, R193): the candidate is a key and becomes the matched
buffer; nothing is written and nothing else changes. -/
def Obligations.EncodeHitExtendsTheMatch : Prop :=
  ∀ (s : State) (i : Instr) (k : Byte), Ready s → EncodeReady i k s.units →
    (Dict.lookup s.units.lzw.dict (s.units.lzw.matched ++ [k])).isSome = true →
    exec i s = .next { s with
      units := { s.units with
        lzw := { s.units.lzw with matched := s.units.lzw.matched ++ [k] } } }

/-- LZW_ENCODE and PIXEL, a miss with room (R143, R144, R148, R193): the code of the matched buffer is
written at the present width, the matched buffer is the symbol, the candidate gets the next code, and
the width grows by one exactly when that code equals `2^width` (below 12). Nothing else changes. -/
def Obligations.EncodeMissAssignsTheNextCode : Prop :=
  ∀ (s : State) (i : Instr) (k : Byte) (c : Code), Ready s → EncodeReady i k s.units →
    Dict.lookup s.units.lzw.dict (s.units.lzw.matched ++ [k]) = none →
    Dict.lookup s.units.lzw.dict s.units.lzw.matched = some c →
    s.units.lzw.next.toNat ≤ 4095 → s.units.bp.Ok → s.units.sb.Ok →
    let z := s.units.lzw
    let codes := [(z.width.toNat, c.toNat)]
    SinkTakes s (codesOut s.units codes).length →
    exec i s = .next { s with
      units := { codesRest s.units codes with
        lzw := { z with
          dict := z.dict ++ [(z.matched ++ [k], BitVec.ofNat 12 z.next.toNat)]
          next := BitVec.ofNat 13 (z.next.toNat + 1)
          width := BitVec.ofNat 4
            (if z.next.toNat = 2 ^ z.width.toNat ∧ z.width.toNat < 12 then z.width.toNat + 1
             else z.width.toNat)
          matched := [k] } }
      out := s.out ++ codesOut s.units codes
      sink := s.sink.drop (codesOut s.units codes).length }

/-- LZW_ENCODE and PIXEL, a miss with a full dictionary (R145, R148, R193): the code of the matched
buffer and then the clear code are written at the present width, the dictionary is seeded again, and
the candidate is not inserted. Nothing else changes. -/
def Obligations.EncodeMissOnFullDictionaryClears : Prop :=
  ∀ (s : State) (i : Instr) (k : Byte) (c : Code), Ready s → EncodeReady i k s.units →
    Dict.lookup s.units.lzw.dict (s.units.lzw.matched ++ [k]) = none →
    Dict.lookup s.units.lzw.dict s.units.lzw.matched = some c →
    s.units.lzw.next.toNat = 4096 → s.units.bp.Ok → s.units.sb.Ok →
    let z := s.units.lzw
    let codes := [(z.width.toNat, c.toNat), (z.width.toNat, 2 ^ z.s.toNat)]
    SinkTakes s (codesOut s.units codes).length →
    exec i s = .next { s with
      units := { codesRest s.units codes with
        lzw := { z with
          dict := (List.range (2 ^ z.s.toNat)).map
            (fun j => ([BitVec.ofNat 8 j], BitVec.ofNat 12 j))
          next := BitVec.ofNat 13 (2 ^ z.s.toNat + 2)
          width := BitVec.ofNat 4 (z.s.toNat + 1)
          matched := [k] } }
      out := s.out ++ codesOut s.units codes
      sink := s.sink.drop (codesOut s.units codes).length }

/-- LZW_FLUSH (R146, R149): the closing codes, both at the present width, the padded byte, the
forwarded flush; the matched buffer is empty and both sessions are over, while `lzw_s`, `lzw_width`,
`lzw_next` and `lzw_dict` keep their values. Nothing else changes. -/
def Obligations.LzwFlushWritesTheClosingCodes : Prop :=
  ∀ (s : State) (c : Code), Ready s → UnitAccess s.units → s.units.lzw.state = .matching →
    s.units.bp.state = .opened → s.units.bp.Ok → s.units.sb.Ok →
    (s.units.lzw.matched ≠ [] → Dict.lookup s.units.lzw.dict s.units.lzw.matched = some c) →
    let codes := closingCodes s.units.lzw c
    SinkTakes s (flushOut s.units codes).length →
    exec .lzwFlush s = .next { s with
      units := { flushRest s.units codes with
        lzw := { s.units.lzw with state := .flushed, matched := [] } }
      out := s.out ++ flushOut s.units codes
      sink := s.sink.drop (flushOut s.units codes).length }

/-- 42_lzw_compressor.md section 4, "Empty input", with the bytes of vector V16: from a fresh BP
session over an empty SB, LZW_INIT and LZW_FLUSH with no symbol between them write one chunk that
holds the clear code and the EOI code, for each of the seven minimum code sizes. -/
def Obligations.EmptySessionWritesClearAndEoi : Prop :=
  ∀ (s : State) (p : BitVec 4 × List Byte),
    p ∈ ([(2, [0x01, 0x2C]), (3, [0x01, 0x98]), (4, [0x02, 0x30, 0x02]), (5, [0x02, 0x60, 0x08]),
      (6, [0x02, 0xC0, 0x20]), (7, [0x02, 0x80, 0x81]), (8, [0x03, 0x00, 0x03, 0x02])] :
      List (BitVec 4 × List Byte)) →
    Ready s → UnitAccess s.units → s.units.lzw.state ≠ .matching →
    s.units.bp = { acc := 0, nbits := 0, state := .opened } → s.units.sb.buf = [] → s.sink = [] →
    ∃ u, Runs [.lzwInit p.1, .lzwFlush] s u ∧ u.out = s.out ++ p.2

/-- What a new session writes and leaves does not depend on what an earlier session left in the LZW
registers (R40, R198): LZW_INIT, and DATA_BEGIN also for the BP registers, overwrite every stale
value, so the dictionary of one frame is not seen by the next. -/
def Obligations.NewSessionForgetsTheOldOne : Prop :=
  ∀ (s : State) (z : Lzw) (p : Bp) (n : BitVec 4), Ready s →
    (UnitAccess s.units → s.units.lzw.state ≠ .matching → z.state ≠ .matching →
      2 ≤ n.toNat → n.toNat ≤ 8 → s.units.bp.state = .opened →
      exec (.lzwInit n) { s with units := { s.units with lzw := z } } = exec (.lzwInit n) s) ∧
    (s.units.ca.state = .lctDone →
      exec .dataBegin { s with units := { s.units with lzw := z, bp := p } } = exec .dataBegin s)

/-! ## Container Assembler -/

/-- GIF_BEGIN (R183, R184, R185, R186): the 6 bytes of the signature, the 7 of the screen descriptor,
and with `anim` the 19 of the looping extension with `LOOP_COUNT`; then STREAM. Nothing else changes. -/
def Obligations.GifBeginWritesTheStreamHeader : Prop :=
  ∀ (s : State) (width height : Half) (anim : Bool), Ready s → UnitAccess s.units →
    width ≠ 0 → height ≠ 0 → s.units.lzw.state ≠ .matching → s.units.bp.state ≠ .opened →
    s.units.sb.buf = [] →
    let lo := fun v : Half => BitVec.ofNat 8 (v.toNat % 256)
    let hi := fun v : Half => BitVec.ofNat 8 (v.toNat / 256)
    let bytes : List Byte :=
      [0x47, 0x49, 0x46, 0x38, 0x39, 0x61,
       lo width, hi width, lo height, hi height, 0x70, 0x00, 0x00] ++
      (if anim then
        [0x21, 0xFF, 0x0B, 0x4E, 0x45, 0x54, 0x53, 0x43, 0x41, 0x50, 0x45, 0x32, 0x2E, 0x30,
         0x03, 0x01, lo s.loopCount, hi s.loopCount, 0x00]
       else [])
    SinkTakes s bytes.length →
    exec (.gifBegin width height anim) s = .next { s with
      units := { s.units with ca := { s.units.ca with state := .stream } }
      out := s.out ++ bytes
      sink := s.sink.drop bytes.length }

/-- FRAME_BEGIN (R181, R187, R188, R189): the 8 bytes of the graphics-control extension and the 10 of
the image descriptor; the frame's registers; then PALETTE. The depth is the least `d ≥ 1` with
`2^d ≥ ncolors`. Nothing else changes. -/
def Obligations.FrameBeginWritesTheFrameHeader : Prop :=
  ∀ (s : State) (width height delay : Half) (ncolors : BitVec 9) (d : Nat), Ready s →
    s.units.ca.state = .stream → width ≠ 0 → height ≠ 0 →
    1 ≤ ncolors.toNat → ncolors.toNat ≤ 256 →
    1 ≤ d → ncolors.toNat ≤ 2 ^ d → (d = 1 ∨ 2 ^ (d - 1) < ncolors.toNat) →
    let lo := fun v : Half => BitVec.ofNat 8 (v.toNat % 256)
    let hi := fun v : Half => BitVec.ofNat 8 (v.toNat / 256)
    let bytes : List Byte :=
      [0x21, 0xF9, 0x04, 0x00, lo delay, hi delay, 0x00, 0x00,
       0x2C, 0x00, 0x00, 0x00, 0x00, lo width, hi width, lo height, hi height,
       BitVec.ofNat 8 (0x80 + (d - 1))]
    SinkTakes s 18 →
    exec (.frameBegin width height delay ncolors) s = .next { s with
      units := { s.units with
        ca := { state := .palette, ncolors := ncolors, depth := BitVec.ofNat 4 d, palcount := 0 } }
      out := s.out ++ bytes
      sink := s.sink.drop 18 }

/-- PAL (R190, R191): the entry's red, green and blue; on the last entry also the copies that pad the
table to `2^depth` entries, and LCT_DONE. Nothing else changes. In any other state CA_SEQUENCE. -/
def Obligations.PalWritesTheEntryAndPadsTheTable : Prop :=
  ∀ (s : State) (r g b : Byte), Ready s →
    (s.units.ca.state ≠ .palette →
      exec (.pal r g b) s =
        .next { s with faultRegs := { flt := true, cause := 2, op := 0x42 } }) ∧
    (s.units.ca.state = .palette →
      s.units.ca.palcount.toNat + 1 < s.units.ca.ncolors.toNat → SinkTakes s 3 →
      exec (.pal r g b) s = .next { s with
        units := { s.units with ca := { s.units.ca with
          palcount := BitVec.ofNat 9 (s.units.ca.palcount.toNat + 1) } }
        out := s.out ++ [r, g, b]
        sink := s.sink.drop 3 }) ∧
    (s.units.ca.state = .palette →
      s.units.ca.palcount.toNat + 1 = s.units.ca.ncolors.toNat →
      let copies := 1 + (2 ^ s.units.ca.depth.toNat - s.units.ca.ncolors.toNat)
      SinkTakes s (3 * copies) →
      exec (.pal r g b) s = .next { s with
        units := { s.units with ca := { s.units.ca with
          palcount := s.units.ca.ncolors, state := .lctDone } }
        out := s.out ++ (List.replicate copies [r, g, b]).flatten
        sink := s.sink.drop (3 * copies) })

/-- DATA_BEGIN (R181, R192): the byte `s = max(2, depth)`, a fresh BP session, and the clear code of a
fresh LZW session; then PIXELS. Nothing else changes. In any other state CA_SEQUENCE. -/
def Obligations.DataBeginOpensTheImageData : Prop :=
  ∀ s : State, Ready s →
    (s.units.ca.state ≠ .lctDone →
      exec .dataBegin s = .next { s with faultRegs := { flt := true, cause := 2, op := 0x43 } }) ∧
    (s.units.ca.state = .lctDone → s.units.sb.Ok → s.units.ca.depth.toNat ≤ 8 →
      let n := max 2 s.units.ca.depth.toNat
      let opened := { s.units with bp := { acc := 0, nbits := 0, state := BpState.opened } }
      let codes := [(n + 1, 2 ^ n)]
      SinkTakes s (1 + (codesOut opened codes).length) →
      exec .dataBegin s = .next { s with
        units := { codesRest opened codes with
          lzw := { state := .matching, s := BitVec.ofNat 4 n, width := BitVec.ofNat 4 (n + 1)
                   next := BitVec.ofNat 13 (2 ^ n + 2)
                   dict := (List.range (2 ^ n)).map
                     (fun k => ([BitVec.ofNat 8 k], BitVec.ofNat 12 k))
                   matched := [] }
          ca := { s.units.ca with state := .pixels } }
        out := s.out ++ (BitVec.ofNat 8 n :: codesOut opened codes)
        sink := s.sink.drop (1 + (codesOut opened codes).length) })

/-- FRAME_END (R194, R195): the closing codes, the padded byte and the last chunk as LZW_FLUSH writes
them; one more byte 0x00 unless the chunk just written was empty; then STREAM. Nothing else changes.
In any other state CA_SEQUENCE. -/
def Obligations.FrameEndClosesTheImageData : Prop :=
  ∀ (s : State) (c : Code), Ready s →
    (s.units.ca.state ≠ .pixels →
      exec .frameEnd s = .next { s with faultRegs := { flt := true, cause := 2, op := 0x45 } }) ∧
    (s.units.ca.state = .pixels → s.units.bp.Ok → s.units.sb.Ok →
      (s.units.lzw.matched ≠ [] → Dict.lookup s.units.lzw.dict s.units.lzw.matched = some c) →
      let codes := closingCodes s.units.lzw c
      let bytes := flushOut s.units codes ++
        (if (flushRest s.units codes).sb.lastLen = 0 then [] else [0x00])
      SinkTakes s bytes.length →
      exec .frameEnd s = .next { s with
        units := { flushRest s.units codes with
          sb := { buf := [], lastLen := 0 }
          lzw := { s.units.lzw with state := .flushed, matched := [] }
          ca := { s.units.ca with state := .stream } }
        out := s.out ++ bytes
        sink := s.sink.drop bytes.length })

/-- GIF_END (R196): the trailer byte 0x3B, then DONE. Nothing else changes. In any other state
CA_SEQUENCE. -/
def Obligations.GifEndWritesTheTrailer : Prop :=
  ∀ s : State, Ready s →
    (s.units.ca.state ≠ .stream →
      exec .gifEnd s = .next { s with faultRegs := { flt := true, cause := 2, op := 0x46 } }) ∧
    (s.units.ca.state = .stream → SinkTakes s 1 →
      exec .gifEnd s = .next { s with
        units := { s.units with ca := { s.units.ca with state := .done } }
        out := s.out ++ [0x3B]
        sink := s.sink.drop 1 })

/-- R180, R181, R187 to R195, joined as in the derived R199 and R200: one whole frame, from any state
between frames that keeps the invariant: the frame's header, the palette padded to `2^d` entries, the
minimum code size byte, and the image data as the chunks of a payload that is not empty with exactly
one terminator, also when the payload is a whole multiple of 255 bytes; and the stream is between
frames again. -/
def Obligations.FrameIsHeaderTableAndDataBlock : Prop :=
  ∀ (s : State) (width height delay : Half) (palette : List (Byte × Byte × Byte))
    (last : Byte × Byte × Byte) (indices : List Byte) (d : Nat),
    Ready s → s.Inv → s.units.ca.state = .stream → s.sink = [] → width ≠ 0 → height ≠ 0 →
    palette.length + 1 ≤ 256 → 1 ≤ d → palette.length + 1 ≤ 2 ^ d →
    (d = 1 ∨ 2 ^ (d - 1) < palette.length + 1) →
    (∀ k ∈ indices, k.toNat < 2 ^ max 2 d) →
    let lo := fun v : Half => BitVec.ofNat 8 (v.toNat % 256)
    let hi := fun v : Half => BitVec.ofNat 8 (v.toNat / 256)
    ∃ u payload,
      Runs (.frameBegin width height delay (BitVec.ofNat 9 (palette.length + 1)) ::
        (palette ++ [last]).map (fun p => Instr.pal p.1 p.2.1 p.2.2) ++
        .dataBegin :: indices.map Instr.pixel ++ [.frameEnd]) s u ∧
      payload ≠ [] ∧
      u.out = s.out ++
        [0x21, 0xF9, 0x04, 0x00, lo delay, hi delay, 0x00, 0x00,
         0x2C, 0x00, 0x00, 0x00, 0x00, lo width, hi width, lo height, hi height,
         BitVec.ofNat 8 (0x80 + (d - 1))] ++
        (palette ++ List.replicate (2 ^ d - palette.length) last).flatMap
          (fun p => [p.1, p.2.1, p.2.2]) ++
        [BitVec.ofNat 8 (max 2 d)] ++ dataBlock payload ∧
      u.units.ca.state = .stream ∧ Ready u ∧ u.Inv

/-! ## The whole machine -/

/-- The registers' invariants hold at reset (R39). -/
def Obligations.ResetMeetsTheInvariant : Prop := State.reset.Inv

/-- Every step keeps the invariants of 10_state.md sections 3 to 7: SB below its cap, BP's held bits
and its empty accumulator outside a session, the LZW dictionary in canonical form, prefix-closed, with
exactly the codes in use and the width that fits them, the units as `ca_state` needs them, and a
recorded cause exactly while there is a fault. -/
def Obligations.StepKeepsTheInvariant : Prop :=
  ∀ s t : State, s.Inv → step s = .next t → t.Inv

/-- While a session runs, every code it can write fits the width it is written with, and a full
dictionary has the width 12 (42_lzw_compressor.md section 4, facts (b) and (d)): the Bit Packer's mask
never removes a bit of a code. -/
def Obligations.EveryCodeFitsTheWidth : Prop :=
  ∀ z : Lzw, z.SessionOk →
    (∀ m c, Dict.lookup z.dict m = some c → c.toNat < 2 ^ z.width.toNat) ∧
    2 ^ z.s.toNat + 1 < 2 ^ z.width.toNat ∧
    (z.next.toNat = 4096 → z.width.toNat = 12) ∧
    (∀ m m' c, Dict.lookup z.dict m = some c → Dict.lookup z.dict m' = some c → m = m')

/-- R36: `out` only grows, a reset adds nothing to it, and no step reads it: with another `out` the same
step happens and the same bytes join it. -/
def Obligations.OutOnlyGrowsAndIsNeverRead : Prop :=
  ∀ s t : State, step s = .next t →
    ∃ bytes, t.out = s.out ++ bytes ∧
      (∀ events, s.host = .reset :: events → bytes = []) ∧
      ∀ other, step { s with out := other } = .next { t with out := other ++ bytes }

/-- R128, R150, R182: the three sequencing registers move only as the tables say, each named by the
opcode of the command that moves it; every other command leaves them alone. -/
def Obligations.SequencingRegistersMoveByTheTables : Prop :=
  ∀ (s t : State) (i : Instr), exec i s = .next t → Specified s → Specified t →
    (t.units.ca.state = s.units.ca.state ∨
      (s.units.ca.state, i.opcode.toNat, t.units.ca.state) ∈
        [(CaState.idle, 0x40, CaState.stream), (.done, 0x40, .stream), (.stream, 0x41, .palette),
         (.palette, 0x42, .lctDone), (.lctDone, 0x43, .pixels), (.pixels, 0x45, .stream),
         (.stream, 0x46, .done)]) ∧
    (t.units.bp.state = s.units.bp.state ∨
      (i.opcode.toNat = 0x20 ∧ s.units.bp.state ≠ .opened ∧ t.units.bp.state = .opened) ∨
      (i.opcode.toNat = 0x43 ∧ t.units.bp.state = .opened) ∨
      (i.opcode.toNat ∈ [0x22, 0x32] ∧ s.units.bp.state = .opened ∧
        t.units.bp.state = .flushed) ∨
      (i.opcode.toNat = 0x45 ∧ t.units.bp.state = .flushed)) ∧
    (t.units.lzw.state = s.units.lzw.state ∨
      (i.opcode.toNat = 0x30 ∧ s.units.lzw.state ≠ .matching ∧ t.units.lzw.state = .matching) ∨
      (i.opcode.toNat = 0x43 ∧ t.units.lzw.state = .matching) ∨
      (i.opcode.toNat = 0x32 ∧ s.units.lzw.state = .matching ∧ t.units.lzw.state = .flushed) ∨
      (i.opcode.toNat = 0x45 ∧ t.units.lzw.state = .flushed))

/-- R21, "A command writes only the registers its rule lists": the frame of every command, whatever it
writes and whether or not it faults, in every next state whose registers the spec gives. -/
def Obligations.CommandsWriteOnlyTheirRegisters : Prop :=
  ∀ (s t : State) (i : Instr), exec i s = .next t → Specified s → Specified t →
    t.host = s.host ∧ t.loopCount = s.loopCount ∧ t.freeCount = s.freeCount ∧
    (t.faultRegs = s.faultRegs ∨ (s.faultRegs.flt = false ∧ t.faultRegs.flt = true)) ∧
    match i with
    | .sbPush _ | .sbFlush | .sbClose =>
        t.units.bp = s.units.bp ∧ t.units.lzw = s.units.lzw ∧ t.units.ca = s.units.ca
    | .bpOpen =>
        t.units.sb = s.units.sb ∧ t.units.lzw = s.units.lzw ∧ t.units.ca = s.units.ca ∧
        t.out = s.out
    | .bpInsert _ _ =>
        t.units.bp.state = s.units.bp.state ∧ t.units.lzw = s.units.lzw ∧
        t.units.ca = s.units.ca
    | .bpFlush => t.units.lzw = s.units.lzw ∧ t.units.ca = s.units.ca
    | .lzwInit _ => t.units.bp.state = s.units.bp.state ∧ t.units.ca = s.units.ca
    | .lzwEncode _ | .pixel _ =>
        t.units.bp.state = s.units.bp.state ∧ t.units.lzw.state = s.units.lzw.state ∧
        t.units.lzw.s = s.units.lzw.s ∧ t.units.ca = s.units.ca
    | .lzwFlush =>
        t.units.lzw.s = s.units.lzw.s ∧ t.units.lzw.width = s.units.lzw.width ∧
        t.units.lzw.next = s.units.lzw.next ∧ t.units.lzw.dict = s.units.lzw.dict ∧
        t.units.ca = s.units.ca
    | .gifBegin _ _ _ | .gifEnd =>
        t.units.sb = s.units.sb ∧ t.units.bp = s.units.bp ∧ t.units.lzw = s.units.lzw ∧
        t.units.ca = { s.units.ca with state := t.units.ca.state }
    | .frameBegin _ _ _ _ =>
        t.units.sb = s.units.sb ∧ t.units.bp = s.units.bp ∧ t.units.lzw = s.units.lzw
    | .pal _ _ _ =>
        t.units.sb = s.units.sb ∧ t.units.bp = s.units.bp ∧ t.units.lzw = s.units.lzw ∧
        t.units.ca.ncolors = s.units.ca.ncolors ∧ t.units.ca.depth = s.units.ca.depth
    | .dataBegin => t.units.ca = { s.units.ca with state := t.units.ca.state }
    | .frameEnd =>
        t.units.lzw.s = s.units.lzw.s ∧ t.units.lzw.width = s.units.lzw.width ∧
        t.units.lzw.next = s.units.lzw.next ∧ t.units.lzw.dict = s.units.lzw.dict ∧
        t.units.ca = { s.units.ca with state := t.units.ca.state }

/-- The work bounds of 70_reset_and_hazards.md section 3: from a state that keeps the invariant no
command adds more bytes to `out` than its bound. -/
def Obligations.WorkPerCommandIsBounded : Prop :=
  ∀ (s t : State) (i : Instr), s.Inv → Specified s → i.wellFormed = true → exec i s = .next t →
    t.out.length ≤ s.out.length + workBound i
end

