-- ==== Sys2Proof/Laws/State.lean ====
section
/-!
SUPPORT. Laws/State.lean: one lemma per field for each update of the state and of a command in
progress, so that no proof unfolds a record update.
-/

namespace Sys2Proof.Machine

/-! ## A command in progress -/

@[simp] theorem emitAll_units (bs : List Byte) (a : Act) : (a.emitAll bs).units = a.units := rfl
@[simp] theorem emitAll_offers (bs : List Byte) (a : Act) :
    (a.emitAll bs).offers = a.offers ++ bs := rfl
@[simp] theorem emit_units (b : Byte) (a : Act) : (a.emit b).units = a.units := rfl
@[simp] theorem emit_offers (b : Byte) (a : Act) : (a.emit b).offers = a.offers ++ [b] := rfl
@[simp] theorem setSb_offers (x : Sb) (a : Act) : (a.setSb x).offers = a.offers := rfl
@[simp] theorem setSb_sb (x : Sb) (a : Act) : (a.setSb x).units.sb = x := rfl
@[simp] theorem setSb_bp (x : Sb) (a : Act) : (a.setSb x).units.bp = a.units.bp := rfl
@[simp] theorem setSb_lzw (x : Sb) (a : Act) : (a.setSb x).units.lzw = a.units.lzw := rfl
@[simp] theorem setSb_ca (x : Sb) (a : Act) : (a.setSb x).units.ca = a.units.ca := rfl
@[simp] theorem setBp_offers (x : Bp) (a : Act) : (a.setBp x).offers = a.offers := rfl
@[simp] theorem setBp_sb (x : Bp) (a : Act) : (a.setBp x).units.sb = a.units.sb := rfl
@[simp] theorem setBp_bp (x : Bp) (a : Act) : (a.setBp x).units.bp = x := rfl
@[simp] theorem setBp_lzw (x : Bp) (a : Act) : (a.setBp x).units.lzw = a.units.lzw := rfl
@[simp] theorem setBp_ca (x : Bp) (a : Act) : (a.setBp x).units.ca = a.units.ca := rfl
@[simp] theorem setLzw_offers (x : Lzw) (a : Act) : (a.setLzw x).offers = a.offers := rfl
@[simp] theorem setLzw_sb (x : Lzw) (a : Act) : (a.setLzw x).units.sb = a.units.sb := rfl
@[simp] theorem setLzw_bp (x : Lzw) (a : Act) : (a.setLzw x).units.bp = a.units.bp := rfl
@[simp] theorem setLzw_lzw (x : Lzw) (a : Act) : (a.setLzw x).units.lzw = x := rfl
@[simp] theorem setLzw_ca (x : Lzw) (a : Act) : (a.setLzw x).units.ca = a.units.ca := rfl
@[simp] theorem setCa_offers (x : Ca) (a : Act) : (a.setCa x).offers = a.offers := rfl
@[simp] theorem setCa_sb (x : Ca) (a : Act) : (a.setCa x).units.sb = a.units.sb := rfl
@[simp] theorem setCa_bp (x : Ca) (a : Act) : (a.setCa x).units.bp = a.units.bp := rfl
@[simp] theorem setCa_lzw (x : Ca) (a : Act) : (a.setCa x).units.lzw = a.units.lzw := rfl
@[simp] theorem setCa_ca (x : Ca) (a : Act) : (a.setCa x).units.ca = x := rfl

/-! ## Fault entry -/

@[simp] theorem raise_units (c : Cause) (op : BitVec 8) (s : State) :
    (raise c op s).units = s.units := rfl
@[simp] theorem raise_faultRegs (c : Cause) (op : BitVec 8) (s : State) :
    (raise c op s).faultRegs = { flt := true, cause := c.code, op := op } := rfl
@[simp] theorem raise_offered (c : Cause) (op : BitVec 8) (s : State) :
    (raise c op s).offered = s.offered := rfl
@[simp] theorem raise_out (c : Cause) (op : BitVec 8) (s : State) : (raise c op s).out = s.out := rfl
@[simp] theorem raise_sink (c : Cause) (op : BitVec 8) (s : State) :
    (raise c op s).sink = s.sink := rfl
@[simp] theorem raise_host (c : Cause) (op : BitVec 8) (s : State) :
    (raise c op s).host = s.host := rfl
@[simp] theorem raise_loopCount (c : Cause) (op : BitVec 8) (s : State) :
    (raise c op s).loopCount = s.loopCount := rfl
@[simp] theorem raise_freeCount (c : Cause) (op : BitVec 8) (s : State) :
    (raise c op s).freeCount = s.freeCount := rfl

/-! ## Reset -/

@[simp] theorem hardReset_units (s : State) : (hardReset s).units = Units.reset := rfl
@[simp] theorem hardReset_faultRegs (s : State) : (hardReset s).faultRegs = FaultRegs.reset := rfl
@[simp] theorem hardReset_offered (s : State) : (hardReset s).offered = none := rfl
@[simp] theorem hardReset_out (s : State) : (hardReset s).out = s.out := rfl
@[simp] theorem hardReset_sink (s : State) : (hardReset s).sink = s.sink := rfl
@[simp] theorem hardReset_host (s : State) : (hardReset s).host = s.host := rfl
@[simp] theorem hardReset_loopCount (s : State) : (hardReset s).loopCount = s.loopCount := rfl
@[simp] theorem hardReset_freeCount (s : State) : (hardReset s).freeCount = s.freeCount := rfl

/-! ## Free values -/

@[simp] theorem forgetUnits_units (s : State) :
    (forgetUnits s).units = Config.unspecifiedUnits s.freeCount := rfl
@[simp] theorem forgetUnits_faultRegs (s : State) : (forgetUnits s).faultRegs = s.faultRegs := rfl
@[simp] theorem forgetUnits_offered (s : State) : (forgetUnits s).offered = s.offered := rfl
@[simp] theorem forgetUnits_out (s : State) : (forgetUnits s).out = s.out := rfl
@[simp] theorem forgetUnits_sink (s : State) : (forgetUnits s).sink = s.sink := rfl
@[simp] theorem forgetUnits_host (s : State) : (forgetUnits s).host = s.host := rfl
@[simp] theorem forgetUnits_loopCount (s : State) : (forgetUnits s).loopCount = s.loopCount := rfl
@[simp] theorem forgetUnits_freeCount (s : State) :
    (forgetUnits s).freeCount = s.freeCount + 1 := rfl

/-! ## Presenting a word -/

@[simp] theorem withFetchWord_host (s : State) (nbits w : Nat) :
    (s.withFetchWord nbits w).host = .command (BitVec.ofNat 64 (w % 2 ^ nbits)) :: s.host := rfl

theorem step_withFetchWord (s : State) (nbits w : Nat) :
    step (s.withFetchWord nbits w) = present (BitVec.ofNat 64 (w % 2 ^ nbits)) s := rfl

end Sys2Proof.Machine
end

