-- ==== Sys2Proof/Laws/Dictionary.lean ====
section
/-!
SUPPORT. Laws/Dictionary.lean: reading after writing, and that every write keeps the canonical form.
-/

namespace Sys2Proof.Machine

@[simp] theorem lookup_nil (m : List Byte) : Dict.lookup [] m = none := rfl

theorem lookup_cons (k : List Byte) (c : Code) (d : Dict) (m : List Byte) :
    Dict.lookup ((k, c) :: d) m = if k = m then some c else Dict.lookup d m := rfl

theorem lookup_append (d d' : Dict) (m : List Byte) :
    Dict.lookup (d ++ d') m = (Dict.lookup d m).or (Dict.lookup d' m) := by
  induction d with
  | nil => simp
  | cons e d ih =>
    obtain ⟨k, c⟩ := e
    simp only [List.cons_append, lookup_cons, ih]
    split <;> simp

/-- A key is in the list with its code. -/
theorem lookup_mem (d : Dict) (m : List Byte) (c : Code) (h : Dict.lookup d m = some c) :
    (m, c) ∈ d := by
  induction d with
  | nil => simp at h
  | cons e d ih =>
    obtain ⟨k, c'⟩ := e
    rw [lookup_cons] at h
    split at h
    · simp_all
    · exact List.mem_cons_of_mem _ (ih h)

/-- A string is no key exactly when no entry has it. -/
theorem lookup_eq_none (d : Dict) (m : List Byte) :
    Dict.lookup d m = none ↔ ∀ e ∈ d, e.1 ≠ m := by
  induction d with
  | nil => simp
  | cons e d ih =>
    obtain ⟨k, c⟩ := e
    rw [lookup_cons]
    split <;> simp_all

/-- The key written reads as the code written, when it was none before. -/
theorem lookup_insert_same (d : Dict) (key : List Byte) (c : Code)
    (h : Dict.lookup d key = none) : Dict.lookup (Dict.insert d key c) key = some c := by
  simp [Dict.insert, lookup_append, h, lookup_cons]

/-- Every other string reads as before. -/
theorem lookup_insert_other (d : Dict) (key m : List Byte) (c : Code) (h : key ≠ m) :
    Dict.lookup (Dict.insert d key c) m = Dict.lookup d m := by
  simp [Dict.insert, lookup_append, lookup_cons, h]

/-- A key stays a key with the same code ("the dictionary grows monotonically", R151). -/
theorem lookup_insert_mono (d : Dict) (key m : List Byte) (c c' : Code)
    (h : Dict.lookup d m = some c') : Dict.lookup (Dict.insert d key c) m = some c' := by
  simp [Dict.insert, lookup_append, h]

theorem wf_iff (d : Dict) :
    Dict.wf d = true ↔
      d.Pairwise (fun x y => x.2.toNat < y.2.toNat ∧ x.1 ≠ y.1) ∧ ∀ e ∈ d, e.1 ≠ [] := by
  simp [Dict.wf]

/-- In canonical form an entry is what its key reads as. -/
theorem lookup_of_mem (d : Dict) (h : Dict.wf d = true) (m : List Byte) (c : Code)
    (hm : (m, c) ∈ d) : Dict.lookup d m = some c := by
  have hp := ((wf_iff d).mp h).1
  clear h
  induction d with
  | nil => simp at hm
  | cons e d ih =>
    obtain ⟨k, c'⟩ := e
    rw [List.pairwise_cons] at hp
    rw [lookup_cons]
    rcases List.mem_cons.mp hm with he | hd
    · simp_all
    · rw [if_neg (hp.1 _ hd).2]
      exact ih hd hp.2

/-- A code above all others for a new key keeps the canonical form. -/
theorem wf_insert (d : Dict) (key : List Byte) (c : Code) (h : Dict.wf d = true)
    (hk : key ≠ []) (hn : Dict.lookup d key = none) (hc : ∀ e ∈ d, e.2.toNat < c.toNat) :
    Dict.wf (Dict.insert d key c) = true := by
  obtain ⟨hp, he⟩ := (wf_iff d).mp h
  have hne := (lookup_eq_none d key).mp hn
  refine (wf_iff _).mpr ⟨?_, ?_⟩
  · rw [Dict.insert, List.pairwise_append]
    refine ⟨hp, List.pairwise_singleton _ _, ?_⟩
    intro x hx y hy
    rw [List.mem_singleton] at hy
    subst hy
    exact ⟨hc x hx, hne x hx⟩
  · intro e hm
    rcases List.mem_append.mp hm with hm | hm
    · exact he e hm
    · rw [List.mem_singleton] at hm
      subst hm
      exact hk

/-- The seeded dictionary reads each literal as itself (R28). -/
theorem mem_seed (s : BitVec 4) (e : List Byte × Code) :
    e ∈ Dict.seed s ↔ ∃ k < 2 ^ s.toNat, e = ([BitVec.ofNat 8 k], BitVec.ofNat 12 k) := by
  simp [Dict.seed, eq_comm]

/-- The seeded dictionary is in canonical form, for every legal minimum code size (R28). -/
theorem wf_seed (s : BitVec 4) (h : s.toNat ≤ 8) : Dict.wf (Dict.seed s) = true := by
  have hs : 2 ^ s.toNat ≤ 256 := by
    calc 2 ^ s.toNat ≤ 2 ^ 8 := Nat.pow_le_pow_right (by omega) h
      _ = 256 := rfl
  refine (wf_iff _).mpr ⟨?_, ?_⟩
  · rw [Dict.seed, List.pairwise_map]
    refine List.Pairwise.imp_of_mem ?_ List.pairwise_lt_range
    intro a b ha hb hab
    rw [List.mem_range] at ha hb
    refine ⟨?_, ?_⟩
    · simp only [BitVec.toNat_ofNat]
      omega
    · intro he
      have := congrArg (fun l : List Byte => l.map BitVec.toNat) he
      simp only [List.map_cons, List.map_nil, BitVec.toNat_ofNat, List.cons.injEq, and_true] at this
      omega
  · intro e he
    obtain ⟨k, _, rfl⟩ := (mem_seed s e).mp he
    simp

/-- The empty dictionary of reset is in canonical form (R39). -/
theorem wf_reset : Dict.wf State.reset.units.lzw.dict = true := rfl

end Sys2Proof.Machine
end

