-- ==== Sys2Proof/Laws/Running.lean ====
section
/-!
SUPPORT. Laws/Running.lean: what the sink takes, how a command ends, and all a command can do.
-/

namespace Sys2Proof.Machine

/-! ## The sink -/

/-- A sink that accepts takes every byte. -/
theorem deliver_accepts (bs : List Byte) (plan : List SinkAnswer)
    (h : ∀ x ∈ plan.take bs.length, x = SinkAnswer.accept) :
    deliver bs plan = { taken := bs, ended := .accepted, left := plan.drop bs.length } := by
  induction bs generalizing plan with
  | nil => simp [deliver]
  | cons b bs ih =>
    cases plan with
    | nil => simp [deliver]
    | cons x plan =>
      have hx : x = .accept := h x (by simp)
      subst hx
      have := ih plan (fun y hy => h y (by simp [hy]))
      simp [deliver, this]

/-- A sink that gives another answer to byte number `k` takes the bytes before it. -/
theorem deliver_stops (bs : List Byte) (k : Nat) (x : SinkAnswer) (left : List SinkAnswer)
    (hk : k < bs.length) (hx : x ≠ .accept) :
    deliver bs (List.replicate k .accept ++ x :: left) =
      { taken := bs.take k, left := left,
        ended := if x = .fail then .failed else .hangs bs[k] } := by
  induction bs generalizing k with
  | nil => simp at hk
  | cons b bs ih =>
    cases k with
    | zero => cases x <;> simp_all [deliver]
    | succ k =>
      have := ih k (by simpa using hk)
      simp [deliver, List.replicate_succ, this]

/-- What the sink takes is a first part of what is offered, all of it when it accepts to the end. -/
theorem deliver_taken (bs : List Byte) (plan : List SinkAnswer) :
    (deliver bs plan).taken <+: bs ∧
    ((deliver bs plan).ended = .accepted → (deliver bs plan).taken = bs) := by
  induction bs generalizing plan with
  | nil => simp [deliver]
  | cons b bs ih =>
    match plan with
    | [] => simp [deliver]
    | .accept :: plan =>
      obtain ⟨h1, h2⟩ := ih plan
      exact ⟨by simpa [deliver] using h1, by simpa [deliver] using h2⟩
    | .fail :: plan => simp [deliver]
    | .stall :: plan => simp [deliver]

/-- Every sink takes no byte. -/
theorem sinkTakes_zero (s : State) : SinkTakes s 0 := by simp [SinkTakes]

/-! ## The end of a command -/

theorem settle_accepts (op : BitVec 8) (a : Act) (s : State) (h : SinkTakes s a.offers.length) :
    settle op a s = { s with
      units := a.units, out := s.out ++ a.offers, sink := s.sink.drop a.offers.length } := by
  simp [settle, deliver_accepts a.offers s.sink h]

/-- All that the end of a command can do. -/
theorem settle_cases (op : BitVec 8) (a : Act) (s : State) :
    ∃ taken left, taken <+: a.offers ∧
      ((taken = a.offers ∧
        settle op a s = { s with units := a.units, out := s.out ++ taken, sink := left }) ∨
       settle op a s =
         raise .sinkError op (forgetUnits { s with out := s.out ++ taken, sink := left }) ∨
       ∃ b, settle op a s =
         { forgetUnits { s with out := s.out ++ taken, sink := left } with offered := some b }) := by
  obtain ⟨hp, ha⟩ := deliver_taken a.offers s.sink
  refine ⟨(deliver a.offers s.sink).taken, (deliver a.offers s.sink).left, hp, ?_⟩
  cases he : (deliver a.offers s.sink).ended with
  | accepted => exact .inl ⟨ha he, by simp [settle, he]⟩
  | failed => exact .inr (.inl (by simp [settle, he]))
  | hangs b => exact .inr (.inr ⟨b, by simp [settle, he]⟩)

/-! ## Running a command -/

theorem whenReady_ready (s : State) (run : State → State) (h : Ready s) :
    whenReady s run = .next (run s) := by
  simp [whenReady, h.1, h.2]

theorem whenReady_faulted (s : State) (run : State → State) (h : s.offered = none)
    (hf : s.faultRegs.flt = true) : whenReady s run = .next s := by
  simp [whenReady, h, hf]

theorem whenReady_waiting (s : State) (run : State → State) (b : Byte) (h : s.offered = some b) :
    whenReady s run = .fault .sinkNeverAnswers := by
  simp [whenReady, h]

/-- All that presenting a command can do and go on: it is discarded in the faulted state, or run. -/
theorem whenReady_next (s t : State) (run : State → State) (h : whenReady s run = .next t) :
    s.offered = none ∧
    ((s.faultRegs.flt = true ∧ t = s) ∨ (s.faultRegs.flt = false ∧ t = run s)) := by
  unfold whenReady at h
  split at h
  · cases h
  · rename_i ho
    refine ⟨by simpa using ho, ?_⟩
    split at h
    · exact .inl ⟨‹_›, by cases h; rfl⟩
    · rename_i hf
      exact .inr ⟨by simpa using hf, by cases h; rfl⟩

section
variable (op : BitVec 8) (checks : Units → List (Bool × Cause)) (body : Act → Act) (s t : State)

/-- A check that fails raises its cause. -/
theorem perform_raises (c : Cause) (h : Ready s) (hc : firstFailing (checks s.units) = some c) :
    perform op checks body s = .next (raise c op s) := by
  simp [perform, whenReady_ready s _ h, hc]

/-- With every check passed and a sink that accepts, the command's writes stand. -/
theorem perform_passes (h : Ready s) (hc : firstFailing (checks s.units) = none)
    (hs : SinkTakes s (body { units := s.units, offers := [] }).offers.length) :
    perform op checks body s = .next { s with
      units := (body { units := s.units, offers := [] }).units
      out := s.out ++ (body { units := s.units, offers := [] }).offers
      sink := s.sink.drop (body { units := s.units, offers := [] }).offers.length } := by
  simp only [perform, whenReady_ready s _ h, hc, settle_accepts op _ s hs]

/-- With every check passed, the command ends as the sink lets it. -/
theorem perform_settles (h : Ready s) (hc : firstFailing (checks s.units) = none) :
    perform op checks body s = .next (settle op (body { units := s.units, offers := [] }) s) := by
  simp only [perform, whenReady_ready s _ h, hc]

/-- All that a command can do and go on: it is discarded, a check of it raises, or it runs to the
end the sink gives it. -/
theorem perform_next (h : perform op checks body s = .next t) :
    s.offered = none ∧
    ((s.faultRegs.flt = true ∧ t = s) ∨
     (s.faultRegs.flt = false ∧ ∃ c, firstFailing (checks s.units) = some c ∧ t = raise c op s) ∨
     (s.faultRegs.flt = false ∧ firstFailing (checks s.units) = none ∧
      t = settle op (body { units := s.units, offers := [] }) s)) := by
  obtain ⟨ho, h⟩ := whenReady_next s t _ h
  refine ⟨ho, ?_⟩
  rcases h with h | ⟨hf, ht⟩
  · exact .inl h
  · cases hc : firstFailing (checks s.units) with
    | none => exact .inr (.inr ⟨hf, rfl, by simpa [hc] using ht⟩)
    | some c => exact .inr (.inl ⟨hf, c, rfl, by simpa [hc] using ht⟩)

end

@[simp] theorem firstFailing_nil : firstFailing [] = none := rfl
@[simp] theorem firstFailing_cons (b : Bool) (c : Cause) (rest : List (Bool × Cause)) :
    firstFailing ((b, c) :: rest) = if b then some c else firstFailing rest := by
  cases b <;> rfl

/-- No check fails exactly when each passes. -/
theorem firstFailing_eq_none (xs : List (Bool × Cause)) :
    firstFailing xs = none ↔ ∀ x ∈ xs, x.1 = false := by
  induction xs with
  | nil => simp
  | cons x xs ih => obtain ⟨b, c⟩ := x; cases b <;> simp [ih]

/-! ## The step -/

/-- All that a step can do and go on. -/
theorem step_next (s t : State) (h : step s = .next t) :
    (s.host = [] ∧ t = s) ∨
    (∃ events, s.host = .reset :: events ∧ t = hardReset { s with host := events }) ∨
    (∃ w events, s.host = .command w :: events ∧ present w { s with host := events } = .next t) := by
  unfold step advance at h
  split at h
  · exact .inl ⟨‹_›, by cases h; rfl⟩
  · exact .inr (.inl ⟨_, ‹_›, by cases h; rfl⟩)
  · exact .inr (.inr ⟨_, _, ‹_›, h⟩)

/-- Presenting a word is running the command it decodes to, or raising ILLEGAL_CMD. -/
theorem present_cases (w : CmdWord) (s : State) :
    (∃ i, decode w = some i ∧ present w s = exec i s) ∨
    (decode w = none ∧ present w s = illegalWord w s) := by
  cases h : decode w with
  | none => exact .inr ⟨rfl, by simp [present, h]⟩
  | some i => exact .inl ⟨i, rfl, by simp [present, h]⟩

end Sys2Proof.Machine
end

