-- ==== Sys2Proof/Laws/Procedures.lean ====
section
/-!
SUPPORT. Laws/Procedures.lean: what each procedure of SB, BP and LZW does, once: its frame, and its
effect by the arithmetic of Safety.lean.
-/

namespace Sys2Proof.Machine

/-! ## Frames -/

@[simp] theorem sbFlush_bp (a : Act) : (sbFlush a).units.bp = a.units.bp := rfl
@[simp] theorem sbFlush_lzw (a : Act) : (sbFlush a).units.lzw = a.units.lzw := rfl
@[simp] theorem sbFlush_ca (a : Act) : (sbFlush a).units.ca = a.units.ca := rfl
@[simp] theorem sbFlush_sb (a : Act) :
    (sbFlush a).units.sb = { buf := [], lastLen := a.units.sb.count } := rfl
@[simp] theorem sbFlush_offers (a : Act) :
    (sbFlush a).offers = a.offers ++ (a.units.sb.count :: a.units.sb.buf) := by
  simp [sbFlush]

@[simp] theorem sbPush_bp (b : Byte) (a : Act) : (sbPush b a).units.bp = a.units.bp := by
  unfold sbPush; dsimp only; split <;> rfl
@[simp] theorem sbPush_lzw (b : Byte) (a : Act) : (sbPush b a).units.lzw = a.units.lzw := by
  unfold sbPush; dsimp only; split <;> rfl
@[simp] theorem sbPush_ca (b : Byte) (a : Act) : (sbPush b a).units.ca = a.units.ca := by
  unfold sbPush; dsimp only; split <;> rfl

@[simp] theorem sbClose_bp (a : Act) : (sbClose a).units.bp = a.units.bp := by
  unfold sbClose; split <;> rfl
@[simp] theorem sbClose_lzw (a : Act) : (sbClose a).units.lzw = a.units.lzw := by
  unfold sbClose; split <;> rfl
@[simp] theorem sbClose_ca (a : Act) : (sbClose a).units.ca = a.units.ca := by
  unfold sbClose; split <;> rfl

@[simp] theorem bpSend_lzw (a : Act) : (bpSend a).units.lzw = a.units.lzw := by simp [bpSend]
@[simp] theorem bpSend_ca (a : Act) : (bpSend a).units.ca = a.units.ca := by simp [bpSend]
@[simp] theorem bpSend_state (a : Act) : (bpSend a).units.bp.state = a.units.bp.state := by
  simp [bpSend]

@[simp] theorem bpDrain_lzw (n : Nat) (a : Act) : (bpDrain n a).units.lzw = a.units.lzw := by
  induction n generalizing a with
  | zero => rfl
  | succ n ih => simp [bpDrain, ih]
@[simp] theorem bpDrain_ca (n : Nat) (a : Act) : (bpDrain n a).units.ca = a.units.ca := by
  induction n generalizing a with
  | zero => rfl
  | succ n ih => simp [bpDrain, ih]
@[simp] theorem bpDrain_state (n : Nat) (a : Act) :
    (bpDrain n a).units.bp.state = a.units.bp.state := by
  induction n generalizing a with
  | zero => rfl
  | succ n ih => simp [bpDrain, ih]

@[simp] theorem bpInsert_lzw (w : Nat) (v : Half) (a : Act) :
    (bpInsert w v a).units.lzw = a.units.lzw := by simp [bpInsert]
@[simp] theorem bpInsert_ca (w : Nat) (v : Half) (a : Act) :
    (bpInsert w v a).units.ca = a.units.ca := by simp [bpInsert]
@[simp] theorem bpInsert_state (w : Nat) (v : Half) (a : Act) :
    (bpInsert w v a).units.bp.state = a.units.bp.state := by simp [bpInsert, bpLoad]

@[simp] theorem bpPad_lzw (a : Act) : (bpPad a).units.lzw = a.units.lzw := by
  unfold bpPad; dsimp only; split <;> simp
@[simp] theorem bpPad_ca (a : Act) : (bpPad a).units.ca = a.units.ca := by
  unfold bpPad; dsimp only; split <;> simp

@[simp] theorem bpFlush_lzw (a : Act) : (bpFlush a).units.lzw = a.units.lzw := by simp [bpFlush]
@[simp] theorem bpFlush_ca (a : Act) : (bpFlush a).units.ca = a.units.ca := by simp [bpFlush]
@[simp] theorem bpFlush_state (a : Act) : (bpFlush a).units.bp.state = .flushed := rfl

@[simp] theorem bpOpen_sb (a : Act) : (bpOpen a).units.sb = a.units.sb := rfl
@[simp] theorem bpOpen_bp (a : Act) :
    (bpOpen a).units.bp = { acc := 0, nbits := 0, state := .opened } := rfl
@[simp] theorem bpOpen_lzw (a : Act) : (bpOpen a).units.lzw = a.units.lzw := rfl
@[simp] theorem bpOpen_ca (a : Act) : (bpOpen a).units.ca = a.units.ca := rfl
@[simp] theorem bpOpen_offers (a : Act) : (bpOpen a).offers = a.offers := rfl

@[simp] theorem lzwEmit_lzw (c : Half) (a : Act) : (lzwEmit c a).units.lzw = a.units.lzw := by
  simp [lzwEmit]
@[simp] theorem lzwEmit_ca (c : Half) (a : Act) : (lzwEmit c a).units.ca = a.units.ca := by
  simp [lzwEmit]
@[simp] theorem lzwEmit_state (c : Half) (a : Act) :
    (lzwEmit c a).units.bp.state = a.units.bp.state := by simp [lzwEmit]

@[simp] theorem lzwInit_ca (n : BitVec 4) (a : Act) : (lzwInit n a).units.ca = a.units.ca := by
  simp [lzwInit]
@[simp] theorem lzwInit_state (n : BitVec 4) (a : Act) :
    (lzwInit n a).units.bp.state = a.units.bp.state := by simp [lzwInit]
/-- A new session leaves nothing of the LZW registers before it (R40, R142). -/
@[simp] theorem lzwInit_lzw (n : BitVec 4) (a : Act) :
    (lzwInit n a).units.lzw =
      { state := .matching, s := n, width := firstWidth n, next := firstCode n,
        dict := Dict.seed n, matched := [] } := by
  simp [lzwInit, lzwSeeded]

@[simp] theorem lzwMiss_ca (k : Byte) (a : Act) : (lzwMiss k a).units.ca = a.units.ca := by
  unfold lzwMiss; dsimp only; split <;> simp
@[simp] theorem lzwMiss_bpState (k : Byte) (a : Act) :
    (lzwMiss k a).units.bp.state = a.units.bp.state := by
  unfold lzwMiss; dsimp only; split <;> simp
/-- The LZW registers after a miss (R143, R145): the insertion, or the seeded dictionary. -/
theorem lzwMiss_lzw (k : Byte) (a : Act) :
    (lzwMiss k a).units.lzw =
      if a.units.lzw.next.toNat ≤ Config.codeMax
      then lzwInsert (a.units.lzw.matched ++ [k]) { a.units.lzw with matched := [k] }
      else lzwSeeded a.units.lzw.s { a.units.lzw with matched := [k] } := by
  unfold lzwMiss; dsimp only; split <;> simp

@[simp] theorem lzwEncode_ca (k : Byte) (a : Act) : (lzwEncode k a).units.ca = a.units.ca := by
  unfold lzwEncode; dsimp only; split <;> simp
@[simp] theorem lzwEncode_bpState (k : Byte) (a : Act) :
    (lzwEncode k a).units.bp.state = a.units.bp.state := by
  unfold lzwEncode; dsimp only; split <;> simp
@[simp] theorem lzwEncode_lzwState (k : Byte) (a : Act) :
    (lzwEncode k a).units.lzw.state = a.units.lzw.state := by
  unfold lzwEncode; dsimp only
  split
  · simp
  · rw [lzwMiss_lzw]; split <;> simp [lzwInsert, lzwSeeded]

@[simp] theorem lzwFlushCodes_ca (a : Act) : (lzwFlushCodes a).units.ca = a.units.ca := by
  unfold lzwFlushCodes; dsimp only; split <;> simp
@[simp] theorem lzwFlushCodes_lzw (a : Act) : (lzwFlushCodes a).units.lzw = a.units.lzw := by
  unfold lzwFlushCodes; dsimp only; split <;> simp
@[simp] theorem lzwFlush_ca (a : Act) : (lzwFlush a).units.ca = a.units.ca := by simp [lzwFlush]
@[simp] theorem lzwFlush_bpState (a : Act) : (lzwFlush a).units.bp.state = .flushed := by
  simp [lzwFlush]
/-- The LZW registers after a flush keep the finished session's values (R40, R146). -/
@[simp] theorem lzwFlush_lzw (a : Act) :
    (lzwFlush a).units.lzw = { a.units.lzw with state := .flushed, matched := [] } := by
  simp [lzwFlush]

/-! ## SB by chunks -/

theorem count_eq (sb : Sb) : sb.count = BitVec.ofNat 8 sb.buf.length := rfl

/-- One push: the byte joins the buffer, and a full buffer leaves as one chunk (R101). -/
theorem sbPush_eq (b : Byte) (a : Act) (h : a.units.sb.Ok) :
    sbPush b a =
      { units := { a.units with sb := chunkRest a.units.sb [b] },
        offers := a.offers ++ chunkOut a.units.sb [b] } := by
  have hb : a.units.sb.buf.length ≤ 254 := h
  by_cases hc : a.units.sb.buf.length = 254
  · have hl : (a.units.sb.buf ++ [b]).length = 255 := by simp [hc]
    have h1 : List.take 255 (a.units.sb.buf ++ [b]) = a.units.sb.buf ++ [b] :=
      List.take_of_length_le (by omega)
    have h2 : List.drop 255 (a.units.sb.buf ++ [b]) = [] := List.drop_of_length_le (by omega)
    simp [sbPush, sbFlush, Act.setSb, Act.emit, Act.emitAll, chunkRest, chunkOut, hc, h1, h2,
      Sb.count]
  · have hl : a.units.sb.buf.length + 1 < 255 := by omega
    have hn : ¬a.units.sb.buf.length + 1 = 255 := by omega
    simp [sbPush, Act.setSb, chunkRest, chunkOut, hl, hn]

/-- After a push the buffer is below its cap again (R106). -/
theorem chunkRest_ok (sb : Sb) (bytes : List Byte) (h : sb.Ok) (hb : bytes.length ≤ 255) :
    (chunkRest sb bytes).Ok := by
  have : sb.buf.length ≤ 254 := h
  unfold chunkRest
  split
  · show (sb.buf ++ bytes).length ≤ 254
    omega
  · show ((sb.buf ++ bytes).drop 255).length ≤ 254
    simp
    omega

@[simp] theorem chunkOut_nil (sb : Sb) (h : sb.Ok) : chunkOut sb [] = [] := by
  have : sb.buf.length ≤ 254 := h
  simp [chunkOut]
  omega

@[simp] theorem chunkRest_nil (sb : Sb) (h : sb.Ok) : chunkRest sb [] = sb := by
  have : sb.buf.length ≤ 254 := h
  have h' : sb.buf.length < 255 := by omega
  simp [chunkRest, h']

/-- Bytes that join the buffer in two parts join it as one, while at most 255 bytes join in all. -/
theorem chunk_append (sb : Sb) (xs ys : List Byte) (h : sb.Ok) (hb : xs.length + ys.length ≤ 255) :
    chunkOut sb xs ++ chunkOut (chunkRest sb xs) ys = chunkOut sb (xs ++ ys) ∧
    chunkRest (chunkRest sb xs) ys = chunkRest sb (xs ++ ys) := by
  have hs : sb.buf.length ≤ 254 := h
  by_cases hx : (sb.buf ++ xs).length < 255
  · simp only [chunkOut, chunkRest, hx, if_true, List.nil_append, List.append_assoc]
    exact ⟨trivial, trivial⟩
  · have hxy : ¬(sb.buf ++ (xs ++ ys)).length < 255 := by
      simp only [List.length_append] at hx ⊢
      omega
    have hd : ((sb.buf ++ xs).drop 255 ++ ys).length < 255 := by
      simp only [List.length_append, List.length_drop] at hx ⊢
      omega
    have h1 : (sb.buf ++ (xs ++ ys)).take 255 = (sb.buf ++ xs).take 255 := by
      rw [← List.append_assoc, List.take_append_of_le_length (by omega)]
    have h2 : (sb.buf ++ (xs ++ ys)).drop 255 = (sb.buf ++ xs).drop 255 ++ ys := by
      rw [← List.append_assoc, List.drop_append_of_le_length (by omega)]
    simp only [chunkOut, chunkRest, hx, hxy, hd, h1, h2, if_true, if_false, List.append_nil]
    exact ⟨trivial, trivial⟩

/-- Pushes in a row, while at most 255 bytes join in all. -/
theorem sbPush_foldl (bytes : List Byte) (a : Act) (h : a.units.sb.Ok)
    (hb : bytes.length ≤ 255) :
    bytes.foldl (fun a b => sbPush b a) a =
      { units := { a.units with sb := chunkRest a.units.sb bytes },
        offers := a.offers ++ chunkOut a.units.sb bytes } := by
  induction bytes generalizing a with
  | nil => simp [h]
  | cons b bytes ih =>
    have hl : bytes.length + 1 ≤ 255 := by simpa using hb
    have hok : (chunkRest a.units.sb [b]).Ok := chunkRest_ok _ _ h (by simp)
    obtain ⟨h1, h2⟩ := chunk_append a.units.sb [b] bytes h (by simp; omega)
    rw [List.foldl_cons, sbPush_eq b a h, ih _ hok (by omega)]
    simp only [List.append_assoc, h1, h2, List.singleton_append]

end Sys2Proof.Machine
end

