-- ==== Sys2Proof/Laws/Packing.lean ====
section
/-!
SUPPORT. Laws/Packing.lean: the Bit Packer's procedures by the arithmetic of Safety.lean: the number
held, the whole bytes that leave, what is left.
-/

namespace Sys2Proof.Machine

/-! ## Joining codes -/

theorem joinCodes_append (h : Nat × Nat) (cs cs' : List (Nat × Nat)) :
    joinCodes h (cs ++ cs') = joinCodes (joinCodes h cs) cs' := by
  induction cs generalizing h with
  | nil => simp [joinCodes]
  | cons c cs ih => obtain ⟨a, n⟩ := h; obtain ⟨w, v⟩ := c; simp [joinCodes, ih]

/-- Codes join above the low `p` bits without touching them. -/
theorem joinCodes_shift (l p a n : Nat) (cs : List (Nat × Nat)) :
    joinCodes (l + 2 ^ p * a, p + n) cs =
      (l + 2 ^ p * (joinCodes (a, n) cs).1, p + (joinCodes (a, n) cs).2) := by
  induction cs generalizing a n with
  | nil => simp [joinCodes]
  | cons c cs ih =>
    obtain ⟨w, v⟩ := c
    have h : l + 2 ^ p * a + v % 2 ^ w * 2 ^ (p + n) = l + 2 ^ p * (a + v % 2 ^ w * 2 ^ n) := by
      rw [Nat.pow_add]; ring
    simp only [joinCodes, h, Nat.add_assoc, ih]

/-- The number held stays below two to the count of its bits. -/
theorem joinCodes_lt (a n : Nat) (cs : List (Nat × Nat)) (h : a < 2 ^ n) :
    (joinCodes (a, n) cs).1 < 2 ^ (joinCodes (a, n) cs).2 := by
  induction cs generalizing a n with
  | nil => simpa [joinCodes] using h
  | cons c cs ih =>
    obtain ⟨w, v⟩ := c
    apply ih
    have hv : v % 2 ^ w + 1 ≤ 2 ^ w := Nat.mod_lt _ (by positivity)
    calc a + v % 2 ^ w * 2 ^ n < 2 ^ n + v % 2 ^ w * 2 ^ n := by omega
      _ = (v % 2 ^ w + 1) * 2 ^ n := by ring
      _ ≤ 2 ^ w * 2 ^ n := Nat.mul_le_mul_right _ hv
      _ = 2 ^ (n + w) := by rw [Nat.pow_add]; ring

/-- The count of the bits held is the sum of the widths. -/
theorem joinCodes_count (a n : Nat) (cs : List (Nat × Nat)) :
    (joinCodes (a, n) cs).2 = n + (cs.map Prod.fst).sum := by
  induction cs generalizing a n with
  | nil => simp [joinCodes]
  | cons c cs ih => obtain ⟨w, v⟩ := c; simp [joinCodes, ih, Nat.add_assoc]

/-! ## Whole bytes -/

@[simp] theorem wholeBytes_length (a n : Nat) : (wholeBytes a n).length = n / 8 := by
  simp [wholeBytes]

/-- A byte below bit `8 m` does not see what stands above it. -/
theorem byte_low (l x m j : Nat) (h : j < m) :
    BitVec.ofNat 8 ((l + 2 ^ (8 * m) * x) / 2 ^ (8 * j)) = BitVec.ofNat 8 (l / 2 ^ (8 * j)) := by
  have hp : 2 ^ (8 * m) * x = 2 ^ (8 * j) * (256 * (2 ^ (8 * (m - j - 1)) * x)) := by
    have : 8 * m = 8 * j + 8 + 8 * (m - j - 1) := by omega
    rw [this, Nat.pow_add, Nat.pow_add]; ring
  apply BitVec.eq_of_toNat_eq
  rw [hp, Nat.add_mul_div_left _ _ (by positivity)]
  simp

/-- A byte from bit `8 m` up sees only what stands above it. -/
theorem byte_high (l x m j : Nat) (h : l < 2 ^ (8 * m)) :
    (l + 2 ^ (8 * m) * x) / 2 ^ (8 * (m + j)) = x / 2 ^ (8 * j) := by
  rw [Nat.mul_add, Nat.pow_add, ← Nat.div_div_eq_div_mul, Nat.add_mul_div_left _ _ (by positivity),
    Nat.div_eq_of_lt h, Nat.zero_add]

/-- Whole bytes of `m` bytes and a number above them. -/
theorem wholeBytes_shift (l x m n : Nat) (h : l < 2 ^ (8 * m)) :
    wholeBytes (l + 2 ^ (8 * m) * x) (8 * m + n) = wholeBytes l (8 * m) ++ wholeBytes x n := by
  have hd : (8 * m + n) / 8 = m + n / 8 := by omega
  have hm : 8 * m / 8 = m := by omega
  simp only [wholeBytes, hd, hm, List.range_add, List.map_append, List.map_map]
  congr 1
  · apply List.map_congr_left
    intro j hj
    exact byte_low l x m j (List.mem_range.mp hj)
  · apply List.map_congr_left
    intro j _
    simp only [Function.comp, byte_high l x m j h]

theorem restBits_shift (l x m n : Nat) (h : l < 2 ^ (8 * m)) :
    restBits (l + 2 ^ (8 * m) * x) (8 * m + n) = restBits x n := by
  have hd : (8 * m + n) / 8 = m + n / 8 := by omega
  simp only [restBits, hd]
  exact byte_high l x m _ h

theorem restBits_lt (a n : Nat) (h : a < 2 ^ n) : restBits a n < 2 ^ (n % 8) := by
  rw [restBits, Nat.div_lt_iff_lt_mul (by positivity), ← Nat.pow_add]
  have : n % 8 + 8 * (n / 8) = n := by omega
  rwa [this]

/-- The number held, cut into the bytes that leave and the rest. -/
theorem split_bits (a n : Nat) :
    a = a % 2 ^ (8 * (n / 8)) + 2 ^ (8 * (n / 8)) * restBits a n ∧ n = 8 * (n / 8) + n % 8 := by
  refine ⟨?_, by omega⟩
  rw [restBits, Nat.mod_add_div]

/-- The low part of the number has the same whole bytes. -/
theorem wholeBytes_low (a n : Nat) :
    wholeBytes (a % 2 ^ (8 * (n / 8))) (8 * (n / 8)) = wholeBytes a n := by
  have hm : 8 * (n / 8) / 8 = n / 8 := by omega
  simp only [wholeBytes, hm]
  apply List.map_congr_left
  intro j hj
  have := byte_low (a % 2 ^ (8 * (n / 8))) (restBits a n) (n / 8) j (List.mem_range.mp hj)
  rw [← (split_bits a n).1] at this
  exact this.symm

/-- Codes written in two parts leave the bytes, and leave behind the bits, of the codes written as
one. -/
theorem join_in_parts (a n : Nat) (cs : List (Nat × Nat)) :
    let h := joinCodes (restBits a n, n % 8) cs
    let g := joinCodes (a, n) cs
    wholeBytes g.1 g.2 = wholeBytes a n ++ wholeBytes h.1 h.2 ∧
    restBits g.1 g.2 = restBits h.1 h.2 ∧ g.2 % 8 = h.2 % 8 := by
  intro h g
  have hl : a % 2 ^ (8 * (n / 8)) < 2 ^ (8 * (n / 8)) := Nat.mod_lt _ (by positivity)
  have hg : g = (a % 2 ^ (8 * (n / 8)) + 2 ^ (8 * (n / 8)) * h.1, 8 * (n / 8) + h.2) := by
    have := joinCodes_shift (a % 2 ^ (8 * (n / 8))) (8 * (n / 8)) (restBits a n) (n % 8) cs
    rw [← (split_bits a n).1, ← (split_bits a n).2] at this
    exact this
  rw [hg]
  refine ⟨?_, restBits_shift _ _ _ _ hl, by dsimp only; omega⟩
  rw [wholeBytes_shift _ _ _ _ hl, wholeBytes_low]

/-! ## The procedures -/

/-- The mask keeps the low `w` bits (R120, R125). -/
theorem maskTo_toNat (w : Nat) (v : Half) (h : w ≤ 16) :
    (maskTo w v).toNat = v.toNat % 2 ^ w := by
  have hw : 2 ^ w ≤ 2 ^ 16 := Nat.pow_le_pow_right (by omega) h
  have hp : 0 < 2 ^ w := by positivity
  have hm : (2 ^ w - 1) % 2 ^ 16 = 2 ^ w - 1 := Nat.mod_eq_of_lt (by omega)
  rw [maskTo, BitVec.toNat_and, BitVec.toNat_ofNat, hm, Nat.and_two_pow_sub_one_eq_mod]

/-- Loading the accumulator adds the masked value above the held bits (R120, R125). -/
theorem bpLoad_toNat (w : Nat) (v : Half) (bp : Bp) (h : w ≤ 16) (hn : bp.nbits.toNat ≤ 7)
    (ha : bp.acc.toNat < 2 ^ bp.nbits.toNat) :
    (bpLoad w v bp).acc.toNat = bp.acc.toNat + v.toNat % 2 ^ w * 2 ^ bp.nbits.toNat ∧
    (bpLoad w v bp).nbits.toNat = bp.nbits.toNat + w := by
  have hv : v.toNat % 2 ^ w < 2 ^ 16 := lt_of_lt_of_le (Nat.mod_lt _ (by positivity))
    (Nat.pow_le_pow_right (by omega) h)
  have hs : 2 ^ bp.nbits.toNat ≤ 2 ^ 7 := Nat.pow_le_pow_right (by omega) hn
  have hb : v.toNat % 2 ^ w * 2 ^ bp.nbits.toNat < 2 ^ 32 := by
    calc v.toNat % 2 ^ w * 2 ^ bp.nbits.toNat ≤ (2 ^ 16) * 2 ^ 7 := Nat.mul_le_mul (by omega) hs
      _ < 2 ^ 32 := by norm_num
  refine ⟨?_, ?_⟩
  · simp only [bpLoad, BitVec.toNat_or, BitVec.toNat_shiftLeft, BitVec.toNat_setWidth,
      maskTo_toNat w v h]
    rw [Nat.mod_eq_of_lt (show v.toNat % 2 ^ w < 2 ^ 32 by omega), Nat.shiftLeft_eq,
      Nat.mod_eq_of_lt hb, Nat.or_comm, ← Nat.shiftLeft_eq, ← Nat.shiftLeft_add_eq_or_of_lt ha]
    omega
  · simp only [bpLoad, BitVec.toNat_add, BitVec.toNat_ofNat]
    omega

/-- The loop of BPInsert: the low bytes are pushed in order and leave the accumulator (R120). -/
theorem bpDrain_eq (n : Nat) (a : Act) (h : 8 * n ≤ a.units.bp.nbits.toNat) :
    bpDrain n a =
      ((wholeBytes a.units.bp.acc.toNat (8 * n)).foldl (fun a b => sbPush b a) a).setBp
        { a.units.bp with
          acc := BitVec.ofNat 32 (a.units.bp.acc.toNat / 2 ^ (8 * n))
          nbits := BitVec.ofNat 5 (a.units.bp.nbits.toNat - 8 * n) } := by
  induction n generalizing a with
  | zero =>
    simp [bpDrain, wholeBytes, Act.setBp]
  | succ n ih =>
    have hN := a.units.bp.nbits.isLt
    have hsub : (a.units.bp.nbits - 8).toNat = a.units.bp.nbits.toNat - 8 := by
      rw [BitVec.toNat_sub_of_le]
      · rfl
      · rw [BitVec.le_def]; simp; omega
    have hcomm : ∀ (bs : List Byte) (x : Bp) (b : Act),
        bs.foldl (fun a b => sbPush b a) (b.setBp x) =
          (bs.foldl (fun a b => sbPush b a) b).setBp x := by
      intro bs x
      induction bs with
      | nil => intro b; rfl
      | cons y bs ihb =>
        intro b
        have : sbPush y (b.setBp x) = (sbPush y b).setBp x := by
          unfold sbPush; dsimp only [setBp_sb]; split <;> rfl
        simp only [List.foldl_cons, this, ihb]
    have hbytes : wholeBytes a.units.bp.acc.toNat (8 * (n + 1)) =
        a.units.bp.acc.extractLsb' 0 8 ::
          wholeBytes (a.units.bp.acc.toNat / 2 ^ 8) (8 * n) := by
      have h1 : 8 * (n + 1) / 8 = n + 1 := by omega
      have h2 : 8 * n / 8 = n := by omega
      simp only [wholeBytes, h1, h2, List.range_succ_eq_map, List.map_cons, List.map_map]
      congr 1
      · apply BitVec.eq_of_toNat_eq; simp
      · apply List.map_congr_left
        intro j _
        simp only [Function.comp]
        have hj : 8 * j.succ = 8 + 8 * j := by omega
        rw [hj, Nat.pow_add, ← Nat.div_div_eq_div_mul]
    have hs : 8 * n ≤ (bpSend a).units.bp.nbits.toNat := by
      simp only [bpSend, setBp_bp, hsub]; omega
    rw [bpDrain, ih _ hs, hbytes, List.foldl_cons]
    simp only [bpSend, setBp_bp, hsub, hcomm, BitVec.toNat_ushiftRight, Nat.shiftRight_eq_div_pow]
    have he : 8 * (n + 1) = 8 + 8 * n := by omega
    rw [he, Nat.pow_add, ← Nat.div_div_eq_div_mul, ← Nat.sub_sub]
    rfl

/-- BPInsert by arithmetic (R120). -/
theorem bpInsert_eq (w : Nat) (v : Half) (a : Act) (h : w ≤ 16) (hn : a.units.bp.nbits.toNat ≤ 7)
    (ha : a.units.bp.acc.toNat < 2 ^ a.units.bp.nbits.toNat) (hs : a.units.sb.Ok) :
    bpInsert w v a =
      { units := codesRest a.units [(w, v.toNat)],
        offers := a.offers ++ codesOut a.units [(w, v.toNat)] } := by
  obtain ⟨h1, h2⟩ := bpLoad_toNat w v a.units.bp h hn ha
  have hb : (wholeBytes (bpLoad w v a.units.bp).acc.toNat
      (8 * ((a.units.bp.nbits.toNat + w) / 8))).length ≤ 255 := by
    simp only [wholeBytes_length]; omega
  have hok : (a.setBp (bpLoad w v a.units.bp)).units.sb.Ok := hs
  have hw : wholeBytes (bpLoad w v a.units.bp).acc.toNat (8 * ((a.units.bp.nbits.toNat + w) / 8)) =
      codeBytes a.units.bp [(w, v.toNat)] := by
    have : 8 * ((a.units.bp.nbits.toNat + w) / 8) / 8 = (a.units.bp.nbits.toNat + w) / 8 := by omega
    simp only [codeBytes, joinCodes, wholeBytes, h1, this]
  have hr : a.units.bp.nbits.toNat + w - 8 * ((a.units.bp.nbits.toNat + w) / 8) =
      (a.units.bp.nbits.toNat + w) % 8 := by omega
  rw [bpInsert, h2, bpDrain_eq _ _ (by rw [setBp_bp, h2]; omega)]
  simp only [setBp_bp]
  rw [sbPush_foldl _ _ hok hb, hw, h1, h2, hr]
  rfl

/-- Codes written in two parts are codes written as one, in the registers and in `out`, while at most
255 bytes leave BP. -/
theorem codes_append (u : Units) (cs cs' : List (Nat × Nat)) (hs : u.sb.Ok)
    (ha : u.bp.acc.toNat < 2 ^ u.bp.nbits.toNat)
    (hb : u.bp.nbits.toNat + ((cs ++ cs').map Prod.fst).sum ≤ 2000) :
    codesRest (codesRest u cs) cs' = codesRest u (cs ++ cs') ∧
    codesOut u cs ++ codesOut (codesRest u cs) cs' = codesOut u (cs ++ cs') := by
  have hlt := joinCodes_lt u.bp.acc.toNat u.bp.nbits.toNat cs ha
  have hrest := restBits_lt _ _ hlt
  have hc := joinCodes_count u.bp.acc.toNat u.bp.nbits.toNat cs
  have hc' := joinCodes_count u.bp.acc.toNat u.bp.nbits.toNat (cs ++ cs')
  obtain ⟨p1, p2, p3⟩ := join_in_parts (joinCodes (u.bp.acc.toNat, u.bp.nbits.toNat) cs).1
    (joinCodes (u.bp.acc.toNat, u.bp.nbits.toNat) cs).2 cs'
  have hj : joinCodes ((joinCodes (u.bp.acc.toNat, u.bp.nbits.toNat) cs).1,
      (joinCodes (u.bp.acc.toNat, u.bp.nbits.toNat) cs).2) cs' =
      joinCodes (u.bp.acc.toNat, u.bp.nbits.toNat) (cs ++ cs') := (joinCodes_append _ _ _).symm
  rw [hj] at p1 p2 p3
  have hm : (joinCodes (u.bp.acc.toNat, u.bp.nbits.toNat) cs).2 % 8 < 8 := Nat.mod_lt _ (by omega)
  have hk : 2 ^ ((joinCodes (u.bp.acc.toNat, u.bp.nbits.toNat) cs).2 % 8) ≤ 2 ^ 8 :=
    Nat.pow_le_pow_right (by omega) (by omega)
  have hacc : (codesRest u cs).bp.acc.toNat = restBits
      (joinCodes (u.bp.acc.toNat, u.bp.nbits.toNat) cs).1
      (joinCodes (u.bp.acc.toNat, u.bp.nbits.toNat) cs).2 := by
    simp only [codesRest, BitVec.toNat_ofNat]; exact Nat.mod_eq_of_lt (by omega)
  have hnb : (codesRest u cs).bp.nbits.toNat =
      (joinCodes (u.bp.acc.toNat, u.bp.nbits.toNat) cs).2 % 8 := by
    simp only [codesRest, BitVec.toNat_ofNat]; exact Nat.mod_eq_of_lt (by omega)
  have hsum : ((cs ++ cs').map Prod.fst).sum = (cs.map Prod.fst).sum + (cs'.map Prod.fst).sum := by
    simp
  have hbytes : codeBytes u.bp (cs ++ cs') =
      codeBytes u.bp cs ++ codeBytes (codesRest u cs).bp cs' := by
    simp only [codeBytes, hacc, hnb]; exact p1
  have hlen : (codeBytes u.bp cs).length + (codeBytes (codesRest u cs).bp cs').length ≤ 255 := by
    have hl : (codeBytes u.bp (cs ++ cs')).length ≤ 255 := by
      simp only [codeBytes, wholeBytes_length, hc']; omega
    rw [hbytes, List.length_append] at hl
    exact hl
  obtain ⟨q1, q2⟩ := chunk_append u.sb (codeBytes u.bp cs) (codeBytes (codesRest u cs).bp cs')
    hs hlen
  refine ⟨?_, ?_⟩
  · have e1 : codesRest (codesRest u cs) cs' = { u with
        bp := { u.bp with
          acc := BitVec.ofNat 32 (restBits
            (joinCodes ((codesRest u cs).bp.acc.toNat, (codesRest u cs).bp.nbits.toNat) cs').1
            (joinCodes ((codesRest u cs).bp.acc.toNat, (codesRest u cs).bp.nbits.toNat) cs').2)
          nbits := BitVec.ofNat 5
            ((joinCodes ((codesRest u cs).bp.acc.toNat,
              (codesRest u cs).bp.nbits.toNat) cs').2 % 8) }
        sb := chunkRest (chunkRest u.sb (codeBytes u.bp cs)) (codeBytes (codesRest u cs).bp cs') } :=
      rfl
    rw [e1, hacc, hnb, q2, ← hbytes, ← p2, ← p3]
    rfl
  · have e2 : codesOut (codesRest u cs) cs' =
        chunkOut (chunkRest u.sb (codeBytes u.bp cs)) (codeBytes (codesRest u cs).bp cs') := rfl
    rw [e2, codesOut, codesOut, q1, ← hbytes]

end Sys2Proof.Machine
end

