-- ==== Sys2Proof/Laws/Sessions.lean ====
section
/-!
SUPPORT. Laws/Sessions.lean: the flushes and the LZW procedures by the arithmetic of Safety.lean.
-/

namespace Sys2Proof.Machine

/-! ## Invariants of the held bits -/

/-- Writing codes keeps the held bits in range, in any session state. -/
theorem codesRest_bits (u : Units) (cs : List (Nat × Nat))
    (ha : u.bp.acc.toNat < 2 ^ u.bp.nbits.toNat) :
    (codesRest u cs).bp.nbits.toNat ≤ 7 ∧
    (codesRest u cs).bp.acc.toNat < 2 ^ (codesRest u cs).bp.nbits.toNat := by
  have hlt := joinCodes_lt u.bp.acc.toNat u.bp.nbits.toNat cs ha
  have hrest := restBits_lt _ _ hlt
  have hm : (joinCodes (u.bp.acc.toNat, u.bp.nbits.toNat) cs).2 % 8 < 8 := Nat.mod_lt _ (by omega)
  have hk : 2 ^ ((joinCodes (u.bp.acc.toNat, u.bp.nbits.toNat) cs).2 % 8) ≤ 2 ^ 8 :=
    Nat.pow_le_pow_right (by omega) (by omega)
  have hnb : (codesRest u cs).bp.nbits.toNat =
      (joinCodes (u.bp.acc.toNat, u.bp.nbits.toNat) cs).2 % 8 := by
    simp only [codesRest, BitVec.toNat_ofNat]; exact Nat.mod_eq_of_lt (by omega)
  have hacc : (codesRest u cs).bp.acc.toNat = restBits
      (joinCodes (u.bp.acc.toNat, u.bp.nbits.toNat) cs).1
      (joinCodes (u.bp.acc.toNat, u.bp.nbits.toNat) cs).2 := by
    simp only [codesRest, BitVec.toNat_ofNat]; exact Nat.mod_eq_of_lt (by omega)
  rw [hnb, hacc]
  exact ⟨by omega, hrest⟩

theorem codesRest_sbOk (u : Units) (cs : List (Nat × Nat)) (hs : u.sb.Ok)
    (hb : u.bp.nbits.toNat + (cs.map Prod.fst).sum ≤ 2000) : (codesRest u cs).sb.Ok := by
  apply chunkRest_ok _ _ hs
  simp only [codeBytes, wholeBytes_length, joinCodes_count]
  omega

/-! ## BPFlush -/

/-- The bytes of a flush after codes: the whole bytes, then those of a flush of what is left. -/
theorem finalBytes_split (u : Units) (cs : List (Nat × Nat))
    (ha : u.bp.acc.toNat < 2 ^ u.bp.nbits.toNat) :
    finalBytes u.bp cs = codeBytes u.bp cs ++ finalBytes (codesRest u cs).bp [] := by
  have hlt := joinCodes_lt u.bp.acc.toNat u.bp.nbits.toNat cs ha
  have hrest := restBits_lt _ _ hlt
  have hm : (joinCodes (u.bp.acc.toNat, u.bp.nbits.toNat) cs).2 % 8 < 8 := Nat.mod_lt _ (by omega)
  have hk : 2 ^ ((joinCodes (u.bp.acc.toNat, u.bp.nbits.toNat) cs).2 % 8) ≤ 2 ^ 8 :=
    Nat.pow_le_pow_right (by omega) (by omega)
  have hnb : (codesRest u cs).bp.nbits.toNat =
      (joinCodes (u.bp.acc.toNat, u.bp.nbits.toNat) cs).2 % 8 := by
    simp only [codesRest, BitVec.toNat_ofNat]; exact Nat.mod_eq_of_lt (by omega)
  have hacc : (codesRest u cs).bp.acc.toNat = restBits
      (joinCodes (u.bp.acc.toNat, u.bp.nbits.toNat) cs).1
      (joinCodes (u.bp.acc.toNat, u.bp.nbits.toNat) cs).2 := by
    simp only [codesRest, BitVec.toNat_ofNat]; exact Nat.mod_eq_of_lt (by omega)
  have h0 : (joinCodes (u.bp.acc.toNat, u.bp.nbits.toNat) cs).2 % 8 / 8 = 0 := by omega
  simp only [finalBytes, codeBytes, joinCodes, hnb, hacc, Nat.mod_mod]
  congr 1
  simp [wholeBytes, restBits, h0]

theorem finalBytes_length (bp : Bp) (cs : List (Nat × Nat)) :
    (finalBytes bp cs).length ≤ (bp.nbits.toNat + (cs.map Prod.fst).sum + 7) / 8 := by
  have hc := joinCodes_count bp.acc.toNat bp.nbits.toNat cs
  simp only [finalBytes, List.length_append, wholeBytes_length, hc]
  split
  · simp only [List.length_nil]; omega
  · simp only [List.length_cons, List.length_nil]; omega

/-- BPFlush by arithmetic (R121). -/
theorem bpFlush_eq (a : Act) (hn : a.units.bp.nbits.toNat ≤ 7)
    (ha : a.units.bp.acc.toNat < 2 ^ a.units.bp.nbits.toNat) (hs : a.units.sb.Ok) :
    bpFlush a =
      { units := flushRest a.units [], offers := a.offers ++ flushOut a.units [] } := by
  have hm : a.units.bp.nbits.toNat % 8 = a.units.bp.nbits.toNat := Nat.mod_eq_of_lt (by omega)
  have hd : a.units.bp.nbits.toNat / 8 = 0 := Nat.div_eq_of_lt (by omega)
  by_cases h : a.units.bp.nbits.toNat = 0
  · have hf : finalBytes a.units.bp [] = [] := by
      simp [finalBytes, joinCodes, wholeBytes, h]
    have hacc : a.units.bp.acc = 0 := by
      apply BitVec.eq_of_toNat_eq
      rw [h] at ha
      simpa using ha
    have hnb : a.units.bp.nbits = 0 := BitVec.eq_of_toNat_eq (by simpa using h)
    have hp : bpPad a = a := by simp [bpPad, h]
    rw [bpFlush, hp]
    simp only [flushRest, flushOut, hf, chunkOut_nil _ hs, chunkRest_nil _ hs, lastChunk,
      sbFlush, Act.setSb, Act.setBp, Act.emit, Act.emitAll, Sb.count, hacc, hnb,
      List.append_assoc, List.singleton_append, List.nil_append]
  · have hf : finalBytes a.units.bp [] = [a.units.bp.acc.extractLsb' 0 8] := by
      have he : BitVec.ofNat 8 a.units.bp.acc.toNat = a.units.bp.acc.extractLsb' 0 8 := by
        apply BitVec.eq_of_toNat_eq; simp
      simp [finalBytes, joinCodes, wholeBytes, restBits, hm, hd, h, he]
    have hp : bpPad a = (sbPush (a.units.bp.acc.extractLsb' 0 8) a).setBp
        { a.units.bp with acc := 0, nbits := 0 } := by
      simp [bpPad, Nat.pos_of_ne_zero h]
    rw [bpFlush, hp, sbPush_eq _ _ hs]
    simp only [flushRest, flushOut, hf, lastChunk, sbFlush, Act.setSb, Act.setBp, Act.emit,
      Act.emitAll, Sb.count, List.append_assoc, List.singleton_append]

/-- Codes and then a flush are the flush of the codes. -/
theorem flush_after_codes (u : Units) (cs : List (Nat × Nat)) (hs : u.sb.Ok)
    (ha : u.bp.acc.toNat < 2 ^ u.bp.nbits.toNat)
    (hb : u.bp.nbits.toNat + (cs.map Prod.fst).sum ≤ 2000) :
    flushRest (codesRest u cs) [] = flushRest u cs ∧
    codesOut u cs ++ flushOut (codesRest u cs) [] = flushOut u cs := by
  have hf := finalBytes_split u cs ha
  have hl := finalBytes_length u.bp cs
  obtain ⟨q1, q2⟩ := chunk_append u.sb (codeBytes u.bp cs) (finalBytes (codesRest u cs).bp []) hs
    (by rw [← List.length_append, ← hf]; omega)
  rw [← hf] at q1 q2
  have hsb : (codesRest u cs).sb = chunkRest u.sb (codeBytes u.bp cs) := rfl
  refine ⟨?_, ?_⟩
  · simp only [flushRest, hsb, q2]
    rfl
  · simp only [flushOut, codesOut, hsb, ← List.append_assoc, q1, q2]

/-! ## LZW -/

/-- The unit registers with other LZW registers write codes alike. -/
theorem codesRest_lzw (u : Units) (z : Lzw) (cs : List (Nat × Nat)) :
    codesRest { u with lzw := z } cs = { codesRest u cs with lzw := z } := rfl

theorem codesOut_lzw (u : Units) (z : Lzw) (cs : List (Nat × Nat)) :
    codesOut { u with lzw := z } cs = codesOut u cs := rfl

section
variable (a : Act) (hn : a.units.bp.nbits.toNat ≤ 7)
  (ha : a.units.bp.acc.toNat < 2 ^ a.units.bp.nbits.toNat) (hs : a.units.sb.Ok)
include hn ha hs

/-- LZWEmit by arithmetic (R141). -/
theorem lzwEmit_eq (c : Half) :
    lzwEmit c a =
      { units := codesRest a.units [(a.units.lzw.width.toNat, c.toNat)],
        offers := a.offers ++ codesOut a.units [(a.units.lzw.width.toNat, c.toNat)] } :=
  bpInsert_eq _ c a (by have := a.units.lzw.width.isLt; omega) hn ha hs

/-- LZWInit by arithmetic (R142). -/
theorem lzwInit_eq (n : BitVec 4) (hl : n.toNat ≤ 8) :
    lzwInit n a =
      { units := { codesRest a.units [(n.toNat + 1, 2 ^ n.toNat)] with
          lzw := { state := .matching, s := n, width := firstWidth n, next := firstCode n,
                   dict := Dict.seed n, matched := [] } },
        offers := a.offers ++ codesOut a.units [(n.toNat + 1, 2 ^ n.toNat)] } := by
  have hw : (firstWidth n).toNat = n.toNat + 1 := by
    simp only [firstWidth, BitVec.toNat_ofNat]; omega
  have hc : (clearCode n).toNat = 2 ^ n.toNat := by
    have : 2 ^ n.toNat ≤ 2 ^ 8 := Nat.pow_le_pow_right (by omega) hl
    rw [clearCode, BitVec.toNat_ofNat]; exact Nat.mod_eq_of_lt (by omega)
  have he := lzwEmit_eq (a.setLzw (lzwSeeded n { a.units.lzw with s := n, matched := [] }))
    hn ha hs (clearCode n)
  simp only [setLzw_lzw, setLzw_offers, lzwSeeded, hw, hc] at he
  simp only [lzwInit, lzwSeeded, he]
  rfl

/-- A miss with room, by arithmetic (R143, R144). -/
theorem lzwMiss_room (k : Byte) (h : a.units.lzw.next.toNat ≤ 4095) :
    let codes := [(a.units.lzw.width.toNat,
      (Dict.codeOf a.units.lzw.dict a.units.lzw.matched).toNat)]
    lzwMiss k a =
      { units := { codesRest a.units codes with
          lzw := lzwInsert (a.units.lzw.matched ++ [k]) { a.units.lzw with matched := [k] } },
        offers := a.offers ++ codesOut a.units codes } := by
  have hc : ((Dict.codeOf a.units.lzw.dict a.units.lzw.matched).setWidth 16).toNat =
      (Dict.codeOf a.units.lzw.dict a.units.lzw.matched).toNat := by
    rw [BitVec.toNat_setWidth]; exact Nat.mod_eq_of_lt (by omega)
  rw [lzwMiss]
  dsimp only
  rw [if_pos h, lzwEmit_eq a hn ha hs, hc]
  rfl

/-- A miss with a full dictionary, by arithmetic (R145). -/
theorem lzwMiss_full (k : Byte) (h : 4095 < a.units.lzw.next.toNat) :
    let codes := [(a.units.lzw.width.toNat,
        (Dict.codeOf a.units.lzw.dict a.units.lzw.matched).toNat),
      (a.units.lzw.width.toNat, 2 ^ a.units.lzw.s.toNat)]
    lzwMiss k a =
      { units := { codesRest a.units codes with
          lzw := lzwSeeded a.units.lzw.s { a.units.lzw with matched := [k] } },
        offers := a.offers ++ codesOut a.units codes } := by
  have hc : ((Dict.codeOf a.units.lzw.dict a.units.lzw.matched).setWidth 16).toNat =
      (Dict.codeOf a.units.lzw.dict a.units.lzw.matched).toNat := by
    rw [BitVec.toNat_setWidth]; exact Nat.mod_eq_of_lt (by omega)
  have hk : (clearCode a.units.lzw.s).toNat = 2 ^ a.units.lzw.s.toNat := by
    have : 2 ^ a.units.lzw.s.toNat ≤ 2 ^ 15 := Nat.pow_le_pow_right (by omega) (by omega)
    rw [clearCode, BitVec.toNat_ofNat]; exact Nat.mod_eq_of_lt (by omega)
  have hwd := a.units.lzw.width.isLt
  have hz : ∀ cs, (codesRest a.units cs).lzw = a.units.lzw := fun _ => rfl
  rw [lzwMiss]
  dsimp only
  rw [if_neg (by show ¬_ ≤ 4095; omega), lzwEmit_eq a hn ha hs, hc]
  obtain ⟨b1, b2⟩ := codesRest_bits a.units [(a.units.lzw.width.toNat,
    (Dict.codeOf a.units.lzw.dict a.units.lzw.matched).toNat)] ha
  have he := fun c o => lzwEmit_eq (Act.mk (codesRest a.units [(a.units.lzw.width.toNat,
    (Dict.codeOf a.units.lzw.dict a.units.lzw.matched).toNat)]) o) b1 b2
    (codesRest_sbOk _ _ hs (by simp; omega)) c
  simp only [he, hz, hk]
  obtain ⟨c1, c2⟩ := codes_append a.units [(a.units.lzw.width.toNat,
    (Dict.codeOf a.units.lzw.dict a.units.lzw.matched).toNat)]
    [(a.units.lzw.width.toNat, 2 ^ a.units.lzw.s.toNat)] hs ha (by simp; omega)
  rw [c1, List.append_assoc, c2]
  rfl

/-- The codes LZWFlush writes, by arithmetic (R146). -/
theorem lzwFlushCodes_eq :
    let codes := closingCodes a.units.lzw (Dict.codeOf a.units.lzw.dict a.units.lzw.matched)
    lzwFlushCodes a =
      { units := codesRest a.units codes, offers := a.offers ++ codesOut a.units codes } := by
  have hc : ((Dict.codeOf a.units.lzw.dict a.units.lzw.matched).setWidth 16).toNat =
      (Dict.codeOf a.units.lzw.dict a.units.lzw.matched).toNat := by
    rw [BitVec.toNat_setWidth]; exact Nat.mod_eq_of_lt (by omega)
  have hk : (eoiCode a.units.lzw.s).toNat = 2 ^ a.units.lzw.s.toNat + 1 := by
    have : 2 ^ a.units.lzw.s.toNat ≤ 2 ^ 15 := Nat.pow_le_pow_right (by omega) (by omega)
    rw [eoiCode, BitVec.toNat_ofNat]; exact Nat.mod_eq_of_lt (by omega)
  have hwd := a.units.lzw.width.isLt
  have hz : ∀ cs, (codesRest a.units cs).lzw = a.units.lzw := fun _ => rfl
  rw [lzwFlushCodes]
  dsimp only
  by_cases hm : a.units.lzw.matched = []
  · rw [if_pos hm, lzwEmit_eq a hn ha hs, hk, closingCodes, if_pos hm]
    rfl
  · rw [if_neg hm, lzwEmit_eq a hn ha hs, hc]
    obtain ⟨b1, b2⟩ := codesRest_bits a.units [(a.units.lzw.width.toNat,
      (Dict.codeOf a.units.lzw.dict a.units.lzw.matched).toNat)] ha
    have he := fun c o => lzwEmit_eq (Act.mk (codesRest a.units [(a.units.lzw.width.toNat,
      (Dict.codeOf a.units.lzw.dict a.units.lzw.matched).toNat)]) o) b1 b2
      (codesRest_sbOk _ _ hs (by simp; omega)) c
    simp only [he, hz, hk]
    obtain ⟨c1, c2⟩ := codes_append a.units [(a.units.lzw.width.toNat,
      (Dict.codeOf a.units.lzw.dict a.units.lzw.matched).toNat)]
      [(a.units.lzw.width.toNat, 2 ^ a.units.lzw.s.toNat + 1)] hs ha (by simp; omega)
    rw [c1, List.append_assoc, c2, closingCodes, if_neg hm]

/-- LZWFlush by arithmetic (R146). -/
theorem lzwFlush_eq :
    let codes := closingCodes a.units.lzw (Dict.codeOf a.units.lzw.dict a.units.lzw.matched)
    lzwFlush a =
      { units := { flushRest a.units codes with
          lzw := { a.units.lzw with state := .flushed, matched := [] } },
        offers := a.offers ++ flushOut a.units codes } := by
  intro codes
  have hwd := a.units.lzw.width.isLt
  have hb : a.units.bp.nbits.toNat + (codes.map Prod.fst).sum ≤ 2000 := by
    simp only [codes, closingCodes]
    split <;> simp <;> omega
  have he : lzwFlushCodes a =
      { units := codesRest a.units codes, offers := a.offers ++ codesOut a.units codes } :=
    lzwFlushCodes_eq a hn ha hs
  obtain ⟨b1, b2⟩ := codesRest_bits a.units codes ha
  obtain ⟨c1, c2⟩ := flush_after_codes a.units codes hs ha hb
  have hf : ∀ z o, bpFlush (Act.setLzw z (Act.mk (codesRest a.units codes) o)) =
      { units := { flushRest a.units codes with lzw := z },
        offers := o ++ flushOut (codesRest a.units codes) [] } := fun z o => by
    rw [bpFlush_eq (Act.setLzw z (Act.mk (codesRest a.units codes) o)) b1 b2
      (codesRest_sbOk _ _ hs hb), ← c1]
    rfl
  rw [← c2, ← List.append_assoc, lzwFlush, he]
  dsimp only
  rw [hf]
  rfl

end

end Sys2Proof.Machine
end

