-- ==== Sys2Proof/Laws/Commands.lean ====
section
/-!
SUPPORT. Laws/Commands.lean: every command as its checks and its operation, once, and its checks as
the rows of the spec's table (60_exceptions.md R222).
-/

namespace Sys2Proof.Machine

/-- The checks of a command, in the order made. -/
def checksOf (i : Instr) (u : Units) : List (Bool × Cause) :=
  match i with
  | .sbPush _ | .sbFlush | .sbClose => [unitAccess u]
  | .bpOpen => [unitAccess u, bpNotOpen u]
  | .bpInsert width _ => [unitAccess u, bpIsOpen u, (!widthLegal width, .bpWidth)]
  | .bpFlush => [unitAccess u, bpIsOpen u]
  | .lzwInit n => [unitAccess u, lzwNotMatch u, (!codeSizeLegal n, .lzwParam), bpIsOpen u]
  | .lzwEncode k => [unitAccess u, lzwIsMatch u, symbolFits k u, bpIsOpen u]
  | .lzwFlush => [unitAccess u, lzwIsMatch u, bpIsOpen u]
  | .gifBegin width height _ =>
      [unitAccess u, sizeFits width height, lzwNotMatch u, bpNotOpen u, sbIsEmpty u]
  | .frameBegin width height _ _ => [caIs .stream u, sizeFits width height]
  | .pal _ _ _ => [caIs .palette u]
  | .dataBegin => [caIs .lctDone u]
  | .pixel k => [caIs .pixels u, symbolFits k u]
  | .frameEnd => [caIs .pixels u]
  | .gifEnd => [caIs .stream u]

/-- The operation of a command. -/
def bodyOf (i : Instr) (loopCount : Half) : Act → Act :=
  match i with
  | .sbPush b => sbPush b
  | .sbFlush => sbFlush
  | .sbClose => sbClose
  | .bpOpen => bpOpen
  | .bpInsert width value => bpInsert width.toNat value
  | .bpFlush => bpFlush
  | .lzwInit n => lzwInit n
  | .lzwEncode k => lzwEncode k
  | .lzwFlush => lzwFlush
  | .gifBegin width height anim => gifBegin width height anim loopCount
  | .frameBegin width height delay ncolors => frameBegin width height delay ncolors
  | .pal r g b => palEntry r g b
  | .dataBegin => dataBegin
  | .pixel k => lzwEncode k
  | .frameEnd => frameEnd
  | .gifEnd => gifEnd

/-! ## The end of a frame -/

/-- SBClose of an empty buffer does nothing (R102). -/
theorem sbClose_empty (a : Act) (h : a.units.sb.buf = []) : sbClose a = a := by
  simp [sbClose, h]

/-- The terminator after a flush: one byte 0x00 unless the chunk just written was empty (R195). -/
theorem terminate_eq (a : Act) (h : a.units.sb.buf = []) :
    terminate a =
      { units := { a.units with sb := { buf := [], lastLen := 0 } },
        offers := a.offers ++ (if a.units.sb.lastLen = 0 then [] else [0x00]) } := by
  obtain ⟨⟨⟨buf, lastLen⟩, bp, lzw, ca⟩, offers⟩ := a
  cases h
  unfold terminate
  by_cases hl : lastLen = 0#8
  · simp [hl]
  · simp [hl, sbFlush, Act.emit, Act.emitAll, Act.setSb, Sb.count]

/-- FRAME_END by arithmetic (R194, R195). -/
theorem frameEnd_eq (a : Act) (hn : a.units.bp.nbits.toNat ≤ 7)
    (ha : a.units.bp.acc.toNat < 2 ^ a.units.bp.nbits.toNat) (hs : a.units.sb.Ok) :
    let codes := closingCodes a.units.lzw (Dict.codeOf a.units.lzw.dict a.units.lzw.matched)
    frameEnd a =
      { units := { flushRest a.units codes with
          sb := { buf := [], lastLen := 0 }
          lzw := { a.units.lzw with state := .flushed, matched := [] }
          ca := { a.units.ca with state := .stream } },
        offers := a.offers ++ (flushOut a.units codes ++
          (if (flushRest a.units codes).sb.lastLen = 0 then [] else [0x00])) } := by
  intro codes
  have hf : lzwFlush a = _ := lzwFlush_eq a hn ha hs
  unfold frameEnd
  rw [hf, terminate_eq _ rfl, sbClose_empty _ rfl, ← List.append_assoc]
  rfl

/-- The command in progress after the whole operation, before the sink has answered. -/
def ran (i : Instr) (s : State) : Act := bodyOf i s.loopCount { units := s.units, offers := [] }

/-- Every command is its checks and its operation. -/
theorem exec_eq (i : Instr) (s : State) :
    exec i s = perform i.opcode (checksOf i) (bodyOf i s.loopCount) s := by
  cases i <;> rfl

/-- A command runs to its end when its checks pass and the sink takes its bytes. -/
theorem exec_passes (i : Instr) (s : State) (h : Ready s)
    (hc : firstFailing (checksOf i s.units) = none) (hs : SinkTakes s (ran i s).offers.length) :
    exec i s = .next { s with
      units := (ran i s).units, out := s.out ++ (ran i s).offers
      sink := s.sink.drop (ran i s).offers.length } := by
  rw [exec_eq, perform_passes _ _ _ _ h hc hs]
  rfl

/-- The same, from what the command's operation comes to. -/
theorem exec_ran (i : Instr) (s : State) (u : Units) (bytes : List Byte) (h : Ready s)
    (hc : firstFailing (checksOf i s.units) = none) (hr : ran i s = { units := u, offers := bytes })
    (hs : SinkTakes s bytes.length) :
    exec i s = .next { s with
      units := u, out := s.out ++ bytes, sink := s.sink.drop bytes.length } := by
  have := exec_passes i s h hc (by rw [hr]; exact hs)
  rwa [hr] at this

/-- A command ends as the sink lets it when its checks pass. -/
theorem exec_settles (i : Instr) (s : State) (h : Ready s)
    (hc : firstFailing (checksOf i s.units) = none) :
    exec i s = .next (settle i.opcode (ran i s) s) := by
  rw [exec_eq, perform_settles _ _ _ _ h hc]
  rfl

/-- A command whose first failing check has cause `c` raises `c`. -/
theorem exec_raises (i : Instr) (s : State) (c : Cause) (h : Ready s)
    (hc : firstFailing (checksOf i s.units) = some c) :
    exec i s = .next (raise c i.opcode s) := by
  rw [exec_eq, perform_raises _ _ _ _ c h hc]

/-- All that a command can do and go on. -/
theorem exec_next (i : Instr) (s t : State) (h : exec i s = .next t) :
    s.offered = none ∧
    ((s.faultRegs.flt = true ∧ t = s) ∨
     (s.faultRegs.flt = false ∧ ∃ c, firstFailing (checksOf i s.units) = some c ∧
      t = raise c i.opcode s) ∨
     (s.faultRegs.flt = false ∧ firstFailing (checksOf i s.units) = none ∧
      t = settle i.opcode (ran i s) s)) :=
  perform_next _ _ _ _ _ (exec_eq i s ▸ h)

/-- In the faulted state a command is discarded. -/
theorem exec_faulted (i : Instr) (s : State) (h : s.offered = none)
    (hf : s.faultRegs.flt = true) : exec i s = .next s := by
  rw [exec_eq]; exact whenReady_faulted _ _ h hf

/-- Behind a sink that never answers a command is not taken. -/
theorem exec_waiting (i : Instr) (s : State) (b : Byte) (h : s.offered = some b) :
    exec i s = .fault .sinkNeverAnswers := by
  rw [exec_eq]; exact whenReady_waiting _ _ b h

/-! ## The checks are the table's -/

@[simp] theorem unitAccess_eq (u : Units) :
    unitAccess u = (decide (¬UnitAccess u), .caSequence) := by
  simp only [unitAccess, UnitAccess, not_or, Bool.decide_and]

/-- The row of the table: the same causes in the same order, each failing when the check does. -/
theorem checksOf_row (i : Instr) (u : Units) :
    List.Forall₂ (fun x y => y.1 = x.2.code.toNat ∧ (x.1 = true ↔ y.2)) (checksOf i u)
      (checkRow i u) := by
  cases i <;>
    simp [checksOf, checkRow, bpNotOpen, bpIsOpen, lzwIsMatch, lzwNotMatch, symbolFits, symbolLegal,
      sizeFits, sizeLegal, sbIsEmpty, caIs, widthLegal, codeSizeLegal, Cause.code,
      Config.bpWidthMin, Config.bpWidthMax, Config.sMin, Config.sMax] <;>
    omega

/-- The causes of a row strictly rise, so the first check that fails has the lowest cause (R223). -/
theorem checkRow_rises (i : Instr) (u : Units) :
    (checkRow i u).Pairwise (fun x y => x.1 < y.1) := by
  cases i <;> simp [checkRow]

/-- The first check that fails, against a table of causes and conditions. -/
theorem firstFailing_table (xs : List (Bool × Cause)) (ys : List (Nat × Prop))
    (h : List.Forall₂ (fun x y => y.1 = x.2.code.toNat ∧ (x.1 = true ↔ y.2)) xs ys) :
    (firstFailing xs = none ↔ ∀ y ∈ ys, ¬y.2) ∧
    (ys.Pairwise (fun x y => x.1 < y.1) → ∀ c, firstFailing xs = some c →
      (∃ y ∈ ys, y.1 = c.code.toNat ∧ y.2) ∧ ∀ y ∈ ys, y.2 → c.code.toNat ≤ y.1) := by
  induction h with
  | nil => simp
  | @cons x y xs ys hxy _ ih =>
    obtain ⟨b, c⟩ := x
    obtain ⟨hc, hb⟩ := hxy
    obtain ⟨ih1, ih2⟩ := ih
    rw [firstFailing_cons]
    cases b with
    | true =>
      have hy : y.2 := hb.mp rfl
      refine ⟨by simp [hy], fun hp c' hc' => ?_⟩
      cases hc'
      refine ⟨⟨y, List.mem_cons_self, hc, hy⟩, fun z hz _ => ?_⟩
      rcases List.mem_cons.mp hz with rfl | hz
      · exact hc.ge
      · exact hc ▸ ((List.pairwise_cons.mp hp).1 z hz).le
    | false =>
      have hy : ¬y.2 := fun h => Bool.false_ne_true (hb.mpr h)
      refine ⟨by simpa [hy] using ih1, fun hp c' hc' => ?_⟩
      obtain ⟨⟨z, hz, h1, h2⟩, h3⟩ := ih2 (List.pairwise_cons.mp hp).2 c' hc'
      refine ⟨⟨z, List.mem_cons_of_mem _ hz, h1, h2⟩, fun w hw hw2 => ?_⟩
      rcases List.mem_cons.mp hw with rfl | hw
      · exact absurd hw2 hy
      · exact h3 w hw hw2

/-- The checks pass when no row's condition holds. -/
theorem firstFailing_none (i : Instr) (u : Units) :
    firstFailing (checksOf i u) = none ↔ Passes i u := by
  rw [(firstFailing_table _ _ (checksOf_row i u)).1]
  exact ⟨fun h c ⟨p, hm, hp⟩ => h _ hm hp, fun h y hy h2 => h y.1 ⟨y.2, hy, h2⟩⟩

/-- The first failing check has the lowest failing cause (R223). -/
theorem firstFailing_some (i : Instr) (u : Units) (c : Cause)
    (h : firstFailing (checksOf i u) = some c) :
    Violates i u c.code.toNat ∧ ∀ c', Violates i u c' → c.code.toNat ≤ c' := by
  obtain ⟨⟨y, hy, h1, h2⟩, h3⟩ :=
    (firstFailing_table _ _ (checksOf_row i u)).2 (checkRow_rises i u) c h
  exact ⟨⟨y.2, h1 ▸ hy, h2⟩, fun c' ⟨p, hm, hp⟩ => h3 _ hm hp⟩

end Sys2Proof.Machine
end

