-- ==== Sys2Proof/Laws/Invariants.lean ====
section
/-!
SUPPORT. Laws/Invariants.lean: what keeps the invariants of the registers: a fresh LZW session, a hit, a
miss, and the writes of codes and flushes.
-/

namespace Sys2Proof.Machine

/-! ## The codes in use -/

theorem codesInUse_first (s : Nat) : codesInUse s (2 ^ s + 2) = List.range (2 ^ s) := by
  simp [codesInUse]

theorem codesInUse_succ (s n : Nat) (h : 2 ^ s + 2 ≤ n) :
    codesInUse s (n + 1) = codesInUse s n ++ [n] := by
  have h1 : n + 1 - (2 ^ s + 2) = (n - (2 ^ s + 2)) + 1 := by omega
  have h2 : 2 ^ s + 2 + (n - (2 ^ s + 2)) = n := by omega
  simp only [codesInUse, h1, List.range_succ, List.map_append, List.map_cons, List.map_nil, h2,
    List.append_assoc]

theorem codesInUse_lt (s n c : Nat) (h : 2 ^ s + 2 ≤ n) (hc : c ∈ codesInUse s n) : c < n := by
  simp only [codesInUse, List.mem_append, List.mem_range, List.mem_map] at hc
  omega

/-! ## A session's dictionary -/

/-- The literals of a seeded dictionary (R28). -/
theorem seed_hasLiterals (s : BitVec 4) (h : s.toNat ≤ 8) :
    Dict.HasLiterals (Dict.seed s) s.toNat := fun k hk =>
  lookup_of_mem _ (wf_seed s h) _ _ ((mem_seed s _).mpr ⟨k, hk, rfl⟩)

/-- A seeded dictionary has no key of two symbols. -/
theorem seed_prefixClosed (s : BitVec 4) : Dict.PrefixClosed (Dict.seed s) := by
  intro e he hl
  obtain ⟨k, _, rfl⟩ := (mem_seed s e).mp he
  simp at hl

theorem seed_codes (s : BitVec 4) (h : s.toNat ≤ 8) :
    (Dict.seed s).map (fun e => e.2.toNat) = codesInUse s.toNat (2 ^ s.toNat + 2) := by
  have hp : 2 ^ s.toNat ≤ 2 ^ 8 := Nat.pow_le_pow_right (by omega) h
  rw [codesInUse_first, Dict.seed, List.map_map]
  conv_rhs => rw [← List.map_id (List.range (2 ^ s.toNat))]
  apply List.map_congr_left
  intro k hk
  have := List.mem_range.mp hk
  simp only [Function.comp, BitVec.toNat_ofNat, id]
  omega

/-- A literal symbol is a key. -/
theorem literal_key (d : Dict) (s : Nat) (h : Dict.HasLiterals d s) (k : Byte)
    (hk : k.toNat < 2 ^ s) : Dict.lookup d [k] = some (BitVec.ofNat 12 k.toNat) := by
  have := h k.toNat hk
  rwa [show BitVec.ofNat 8 k.toNat = k from by apply BitVec.eq_of_toNat_eq; simp] at this

/-- A seeded session, with an empty matched buffer or with one symbol in it (R142, R145). -/
theorem seeded_sessionOk (z : Lzw) (s : BitVec 4) (h1 : 2 ≤ s.toNat) (h2 : s.toNat ≤ 8)
    (hs : z.s = s) (hw : z.width = firstWidth s) (hn : z.next = firstCode s)
    (hd : z.dict = Dict.seed s)
    (hm : z.matched = [] ∨ ∃ k : Byte, k.toNat < 2 ^ s.toNat ∧ z.matched = [k]) :
    z.SessionOk := by
  have hp : 2 ^ s.toNat ≤ 2 ^ 8 := Nat.pow_le_pow_right (by omega) h2
  have hp' : 2 ^ (s.toNat + 1) = 2 * 2 ^ s.toNat := by rw [Nat.pow_succ]; ring
  have hp4 : 2 ^ 2 ≤ 2 ^ s.toNat := Nat.pow_le_pow_right (by omega) h1
  have ew : z.width.toNat = s.toNat + 1 := by
    rw [hw, firstWidth, BitVec.toNat_ofNat]; omega
  have en : z.next.toNat = 2 ^ s.toNat + 2 := by
    rw [hn, firstCode, BitVec.toNat_ofNat]; omega
  refine ⟨?_, ?_, ?_, ?_, ?_, ?_, ?_, ?_, ?_, ?_, ?_, ?_⟩
  · rw [hs]; omega
  · rw [hs, ew]; omega
  · rw [hs, en]; omega
  · rw [hd]; exact wf_seed s h2
  · rw [hd, hs, en]; exact seed_codes s h2
  · rw [hd, hs]; exact seed_hasLiterals s h2
  · rw [hd]; exact seed_prefixClosed s
  · rcases hm with hm | ⟨k, hk, hm⟩
    · exact fun h => absurd hm h
    · intro _
      rw [hm, hd, literal_key _ _ (seed_hasLiterals s h2) k hk]
      rfl
  · intro _; rw [hd, hs, en]; exact ⟨rfl, rfl⟩
  · intro _; rw [ew, hs]
  · rw [en, ew]; omega
  · exact .inl (by rw [ew, hs])

/-- A hit keeps the session (R143). -/
theorem hit_sessionOk (z : Lzw) (m : List Byte) (h : z.SessionOk) (hm : m ≠ [])
    (hk : (Dict.lookup z.dict m).isSome = true) : { z with matched := m }.SessionOk := by
  obtain ⟨a1, a2, a3, a4, a5, a6, a7, _, _, a10, a11, a12⟩ := h
  exact ⟨a1, a2, a3, a4, a5, a6, a7, fun _ => hk, fun h => absurd h hm, a10, a11, a12⟩

/-- On a miss the matched buffer is not empty (R151(a)). -/
theorem miss_matched (z : Lzw) (k : Byte) (h : z.SessionOk) (hk : k.toNat < 2 ^ z.s.toNat)
    (hn : Dict.lookup z.dict (z.matched ++ [k]) = none) : z.matched ≠ [] := by
  intro hm
  obtain ⟨_, _, _, _, _, a6, _⟩ := h
  rw [hm, List.nil_append, literal_key _ _ a6 k hk] at hn
  cases hn

/-- A miss with room keeps the session (R143, R144). -/
theorem insert_sessionOk (z : Lzw) (k : Byte) (h : z.SessionOk) (hk : k.toNat < 2 ^ z.s.toNat)
    (hn : Dict.lookup z.dict (z.matched ++ [k]) = none) (hr : z.next.toNat ≤ 4095) :
    (lzwInsert (z.matched ++ [k]) { z with matched := [k] }).SessionOk := by
  have hm := miss_matched z k h hk hn
  obtain ⟨a1, a2, a3, a4, a5, a6, a7, a8, _, _, a11, a12⟩ := h
  have hw := z.width.isLt
  have ec : (z.next.setWidth 12).toNat = z.next.toNat := by
    rw [BitVec.toNat_setWidth]; omega
  have en : (z.next + 1).toNat = z.next.toNat + 1 := by
    rw [BitVec.toNat_add]; simp; omega
  have hlt : ∀ e ∈ z.dict, e.2.toNat < z.next.toNat := fun e he =>
    codesInUse_lt _ _ _ a3.1 (a5 ▸ List.mem_map.mpr ⟨e, he, rfl⟩)
  have hlit : Dict.HasLiterals (Dict.insert z.dict (z.matched ++ [k]) (z.next.setWidth 12))
      z.s.toNat := fun j hj => lookup_insert_mono _ _ _ _ _ (a6 j hj)
  have hmono : ∀ m, (Dict.lookup z.dict m).isSome = true →
      (Dict.lookup (Dict.insert z.dict (z.matched ++ [k]) (z.next.setWidth 12)) m).isSome = true := by
    intro m hm
    obtain ⟨c, hc⟩ := Option.isSome_iff_exists.mp hm
    rw [lookup_insert_mono _ _ _ _ _ hc]
    rfl
  -- The width before and after: it grows exactly when the code just assigned is `2^width`.
  have hgrow : ∀ w : BitVec 4,
      w = (if z.next.toNat = 2 ^ z.width.toNat ∧ z.width.toNat < 12 then z.width + 1
        else z.width) →
      (z.s.toNat + 1 ≤ w.toNat ∧ w.toNat ≤ 12) ∧ z.next.toNat < 2 ^ w.toNat ∧
      (w.toNat = z.s.toNat + 1 ∨ 2 ^ (w.toNat - 1) ≤ z.next.toNat) := by
    intro w hwd
    split at hwd
    · rename_i hc
      have ew : w.toNat = z.width.toNat + 1 := by
        rw [hwd, BitVec.toNat_add]; simp; omega
      have hp : 2 ^ (z.width.toNat + 1) = 2 * 2 ^ z.width.toNat := by rw [Nat.pow_succ]; ring
      rw [ew, Nat.add_sub_cancel, hp]
      have : 0 < 2 ^ z.width.toNat := by positivity
      exact ⟨by omega, by omega, .inr hc.1.ge⟩
    · rename_i hc
      subst hwd
      refine ⟨a2, ?_, ?_⟩
      · by_cases he : z.next.toNat = 2 ^ z.width.toNat
        · have : z.width.toNat = 12 := by
            have : ¬z.width.toNat < 12 := fun h => hc ⟨he, h⟩
            omega
          rw [this] at he
          omega
        · omega
      · omega
  obtain ⟨g1, g2, g3⟩ := hgrow _ rfl
  refine ⟨a1, g1, ?_, ?_, ?_, hlit, ?_, ?_, ?_, ?_, ?_, ?_⟩
  · show 2 ^ z.s.toNat + 2 ≤ (z.next + 1).toNat ∧ (z.next + 1).toNat ≤ 4096
    rw [en]; omega
  · exact wf_insert _ _ _ a4 (by simp) hn (by rw [ec]; exact hlt)
  · show (Dict.insert z.dict (z.matched ++ [k]) (z.next.setWidth 12)).map (fun e => e.2.toNat) =
      codesInUse z.s.toNat (z.next + 1).toNat
    rw [en, codesInUse_succ _ _ a3.1, Dict.insert, List.map_append, a5, List.map_cons, ec]
    rfl
  · intro e he hl
    rcases List.mem_append.mp he with he | he
    · exact hmono _ (a7 e he hl)
    · rw [List.mem_singleton] at he
      subst he
      simp only [List.dropLast_concat]
      exact hmono _ (a8 hm)
  · intro _
    show (Dict.lookup (Dict.insert _ _ _) [k]).isSome = true
    rw [literal_key _ _ hlit k hk]
    rfl
  · intro h; cases h
  · intro h
    exfalso
    have h : (z.next + 1).toNat = 2 ^ z.s.toNat + 2 := h
    rw [en] at h
    omega
  · show (z.next + 1).toNat - 1 < _
    rw [en, Nat.add_sub_cancel]
    exact g2
  · show _ ∨ _ ≤ (z.next + 1).toNat - 1
    rw [en, Nat.add_sub_cancel]
    exact g3

/-- LZWEncode keeps the session (R143 to R145). -/
theorem encode_sessionOk (k : Byte) (a : Act) (h : a.units.lzw.SessionOk)
    (hk : k.toNat < 2 ^ a.units.lzw.s.toNat) : (lzwEncode k a).units.lzw.SessionOk := by
  unfold lzwEncode
  dsimp only
  split
  · rename_i hc
    exact hit_sessionOk _ _ h (by simp) (by rw [hc]; rfl)
  · rename_i hn
    rw [lzwMiss_lzw]
    split
    · exact insert_sessionOk _ k h hk hn ‹_›
    · exact seeded_sessionOk _ a.units.lzw.s h.1.1 h.1.2 rfl rfl rfl rfl (.inr ⟨k, hk, rfl⟩)

/-- LZWInit gives a session (R142). -/
theorem init_sessionOk (n : BitVec 4) (a : Act) (h1 : 2 ≤ n.toNat) (h2 : n.toNat ≤ 8) :
    (lzwInit n a).units.lzw.SessionOk := by
  rw [lzwInit_lzw]
  exact seeded_sessionOk _ n h1 h2 rfl rfl rfl rfl (.inl rfl)

/-! ## SB and BP -/

/-- SB and an open or closed BP session keep their invariants (10_state.md sections 3 and 4). -/
abbrev PackOk (u : Units) : Prop := u.sb.Ok ∧ u.bp.Ok

/-- Writing codes into an open session keeps it. -/
theorem codesRest_packOk (u : Units) (cs : List (Nat × Nat)) (h : PackOk u)
    (ho : u.bp.state = .opened) (hb : u.bp.nbits.toNat + (cs.map Prod.fst).sum ≤ 2000) :
    PackOk (codesRest u cs) :=
  have hb' := codesRest_bits u cs h.2.2.1
  ⟨codesRest_sbOk u cs h.1 hb, hb'.1, hb'.2, fun hc => absurd ho hc⟩

/-- A flush leaves both empty. -/
theorem flushRest_packOk (u : Units) (cs : List (Nat × Nat)) : PackOk (flushRest u cs) :=
  ⟨by simp [Sb.Ok, flushRest], by simp [Bp.Ok, flushRest]⟩

/-- LZWEncode keeps SB and an open BP session. -/
theorem encode_packOk (k : Byte) (a : Act) (h : PackOk a.units) (ho : a.units.bp.state = .opened) :
    PackOk (lzwEncode k a).units := by
  have hw := a.units.lzw.width.isLt
  unfold lzwEncode
  dsimp only
  split
  · exact h
  · rcases Nat.lt_or_ge 4095 a.units.lzw.next.toNat with hn | hn
    · rw [lzwMiss_full a h.2.1 h.2.2.1 h.1 k hn]
      exact codesRest_packOk a.units _ h ho (by have := h.2.1; simp; omega)
    · rw [lzwMiss_room a h.2.1 h.2.2.1 h.1 k hn]
      exact codesRest_packOk a.units _ h ho (by have := h.2.1; simp; omega)

/-- LZWInit keeps SB and an open BP session. -/
theorem init_packOk (n : BitVec 4) (a : Act) (h : PackOk a.units) (ho : a.units.bp.state = .opened)
    (hl : n.toNat ≤ 8) : PackOk (lzwInit n a).units := by
  rw [lzwInit_eq a h.2.1 h.2.2.1 h.1 n hl]
  exact codesRest_packOk a.units _ h ho (by have := h.2.1; simp; omega)

end Sys2Proof.Machine
end

