-- ==== Sys2Proof/Laws/PerInstr.lean ====
section
/-!
SUPPORT. Laws/PerInstr.lean: for each command, the opcode byte of its word is its opcode of 30_encoding.md R83.
-/

namespace Sys2Proof.Laws.EncodedOpcode

/-- The opcode byte of the command's word is the command's opcode, and the rest is its operand bits. -/
def Statement (i : Instr) : Prop :=
  opcodeOf (encode i) = i.opcode ∧ CmdWord.field (encode i) 0 56 = i.operandBits

/-- The two parts of a word, for any command. -/
theorem of_append (i : Instr) : Statement i := by
  constructor
  · apply BitVec.eq_of_toNat_eq
    have := i.operandBits.isLt
    simp only [opcodeOf, CmdWord.field, encode, BitVec.extractLsb'_toNat, BitVec.toNat_cast,
      BitVec.toNat_append, Nat.shiftRight_eq_div_pow, Nat.shiftLeft_eq]
    rw [← Nat.shiftLeft_eq, ← Nat.shiftLeft_add_eq_or_of_lt this, Nat.shiftLeft_eq]
    have := i.opcode.isLt
    omega
  · apply BitVec.eq_of_toNat_eq
    have := i.operandBits.isLt
    simp only [CmdWord.field, encode, BitVec.extractLsb'_toNat, BitVec.toNat_cast,
      BitVec.toNat_append, Nat.shiftRight_eq_div_pow]
    rw [← Nat.shiftLeft_add_eq_or_of_lt this, Nat.shiftLeft_eq]
    omega

theorem sbPush (byte : Byte) : Statement (.sbPush byte) := of_append _
theorem sbFlush : Statement .sbFlush := of_append _
theorem sbClose : Statement .sbClose := of_append _
theorem bpOpen : Statement .bpOpen := of_append _
theorem bpInsert (width : BitVec 5) (value : Half) : Statement (.bpInsert width value) := of_append _
theorem bpFlush : Statement .bpFlush := of_append _
theorem lzwInit (s : BitVec 4) : Statement (.lzwInit s) := of_append _
theorem lzwEncode (byte : Byte) : Statement (.lzwEncode byte) := of_append _
theorem lzwFlush : Statement .lzwFlush := of_append _
theorem gifBegin (width height : Half) (anim : Bool) : Statement (.gifBegin width height anim) := of_append _
theorem frameBegin (width height delay : Half) (ncolors : BitVec 9) : Statement (.frameBegin width height delay ncolors) := of_append _
theorem pal (r g b : Byte) : Statement (.pal r g b) := of_append _
theorem dataBegin : Statement .dataBegin := of_append _
theorem pixel (byte : Byte) : Statement (.pixel byte) := of_append _
theorem frameEnd : Statement .frameEnd := of_append _
theorem gifEnd : Statement .gifEnd := of_append _

end Sys2Proof.Laws.EncodedOpcode
end

