-- ==== Sys2Proof/Tests/Slice0.lean ====
section
/-!
SUPPORT. Tests/Slice0.lean: the model's own tests. Expected values are those the spec prints
(30_encoding.md section 4, the examples of the command rules, 95_test_vectors.md) or are worked out by
hand from a rule, as each test says. At the end, for every statement with hypotheses, a state and
operands that meet them.
-/

namespace Sys2Proof.Tests

open Sys2Proof Sys2Proof.Machine

/-! ## Helpers -/

/-- The state after one command, or the state itself when the model stops. -/
def after (i : Instr) (s : State) : State :=
  match exec i s with
  | .next t => t
  | _ => s

/-- The reset state with other unit registers. -/
def holding (u : Units) : State := { State.reset with units := u }

/-- Only SB holds something. -/
def sbHolds (buf : List Byte) : State :=
  holding { Units.reset with sb := { buf := buf, lastLen := 0 } }

/-- An open BP session, with bytes in SB. -/
def bpHolds (acc : BitVec 32) (nbits : BitVec 5) (buf : List Byte) : Units :=
  { Units.reset with
    bp := { acc := acc, nbits := nbits, state := .opened }, sb := { buf := buf, lastLen := 0 } }

/-- The four literals of `s = 2`. -/
def lit2 : Dict := [([0], 0), ([1], 1), ([2], 2), ([3], 3)]

/-- Program P2 after its step 5: `[1,1]` has code 6, the matched buffer is `[1,1]`, six bits wait. -/
def p2step5 : Units :=
  { bpHolds 0x0C 6 [] with
    lzw := { state := .matching, s := 2, width := 3, next := 7,
             dict := lit2 ++ [([1, 1], 6)], matched := [1, 1] } }

/-- Program P3 after its step 10, in the image data of a frame. -/
def p3step10 : Units :=
  { sb := { buf := [0x44], lastLen := 0 }
    bp := { acc := 0, nbits := 1, state := .opened }
    lzw := { state := .matching, s := 2, width := 3, next := 8,
             dict := lit2 ++ [([0, 1], 6), ([1, 2], 7)], matched := [2] }
    ca := { state := .pixels, ncolors := 4, depth := 2, palcount := 4 } }

/-- Program P3 after its step 11: the width has grown to 4. -/
def p3step11 : Units :=
  { p3step10 with
    bp := { acc := 4, nbits := 4, state := .opened }
    lzw := { p3step10.lzw with
      width := 4, next := 9, dict := p3step10.lzw.dict ++ [([2, 3], 8)], matched := [3] } }

/-- A full dictionary (`lzw_next = 4096`), cut down to the entries the next symbol needs. -/
def fullDict : Units :=
  { bpHolds 0 0 [] with
    lzw := { state := .matching, s := 2, width := 12, next := 4096, dict := lit2, matched := [1] } }

/-- CA in a given state, with a palette of `n` colours of depth `d`, `c` of them received. -/
def caIn (st : CaState) (n : BitVec 9) (d : BitVec 4) (c : BitVec 9) : State :=
  holding { Units.reset with ca := { state := st, ncolors := n, depth := d, palcount := c } }

/-! ## Well-formed commands (R82, R87) -/

theorem test_ncolors_zero_refused : Instr.wellFormed (.frameBegin 1 1 0 0) = false := by decide
theorem test_ncolors_257_refused : Instr.wellFormed (.frameBegin 1 1 0 257) = false := by decide
theorem test_ncolors_256_accepted : Instr.wellFormed (.frameBegin 1 1 0 256) = true := by decide

/-! ## Decoding, each word written out from R81 and R83, bits 63 down to 0 -/

theorem test_decode_sb_push :
    decode 0b00010000_000000000000000000000000000000000000000000000000_11011110 =
      some (.sbPush 0xDE) := by decide
theorem test_decode_sb_flush :
    decode 0b00010001_00000000000000000000000000000000000000000000000000000000 =
      some .sbFlush := by decide
theorem test_decode_sb_close :
    decode 0b00010010_00000000000000000000000000000000000000000000000000000000 =
      some .sbClose := by decide
theorem test_decode_bp_open :
    decode 0b00100000_00000000000000000000000000000000000000000000000000000000 =
      some .bpOpen := by decide
theorem test_decode_bp_insert :
    decode 0b00100001_00000000000000000000000000000000000_01100_0000101010111100 =
      some (.bpInsert 12 0xABC) := by decide
theorem test_decode_bp_flush :
    decode 0b00100010_00000000000000000000000000000000000000000000000000000000 =
      some .bpFlush := by decide
theorem test_decode_lzw_init :
    decode 0b00110000_0000000000000000000000000000000000000000000000000000_1000 =
      some (.lzwInit 8) := by decide
theorem test_decode_lzw_encode :
    decode 0b00110001_000000000000000000000000000000000000000000000000_10000001 =
      some (.lzwEncode 129) := by decide
theorem test_decode_lzw_flush :
    decode 0b00110010_00000000000000000000000000000000000000000000000000000000 =
      some .lzwFlush := by decide
theorem test_decode_gif_begin :
    decode 0b01000000_00000000000000000000000_1_0000000000000001_0000000000000011 =
      some (.gifBegin 3 1 true) := by decide
theorem test_decode_frame_begin :
    decode 0b01000001_11011111_0000000000000000_0000000000000001_0000000011100000 =
      some (.frameBegin 224 1 0 224) := by decide
theorem test_decode_frame_begin_256 :
    decode 0b01000001_11111111_0001001000110100_0000000000000001_0000000000000011 =
      some (.frameBegin 3 1 0x1234 256) := by decide
theorem test_decode_pal :
    decode 0b01000010_00000000000000000000000000000000_00110000_00100000_00010000 =
      some (.pal 0x10 0x20 0x30) := by decide
theorem test_decode_data_begin :
    decode 0b01000011_00000000000000000000000000000000000000000000000000000000 =
      some .dataBegin := by decide
theorem test_decode_pixel :
    decode 0b01000100_000000000000000000000000000000000000000000000000_00000011 =
      some (.pixel 3) := by decide
theorem test_decode_frame_end :
    decode 0b01000101_00000000000000000000000000000000000000000000000000000000 =
      some .frameEnd := by decide
theorem test_decode_gif_end :
    decode 0b01000110_00000000000000000000000000000000000000000000000000000000 =
      some .gifEnd := by decide

/-- The illegal words of vector V32. -/
theorem test_decode_illegal :
    ∀ w ∈ ([0x0000000000000000, 0xFFFFFFFFFFFFFFFF, 0x1300000000000000, 0x4700000000000000,
        0x1100000000000001, 0x1000000000000100, 0x4000000200010001, 0x4200000001000000,
        0x2100000000200001, 0x3000000000000012] : List CmdWord), decode w = none := by
  simp only [List.forall_mem_cons, List.not_mem_nil, false_imp_iff, implies_true, and_true]
  decide

/-- Vector V33: operands out of range are legal encodings. -/
theorem test_decode_out_of_range :
    decode 0x2100000000110001 = some (.bpInsert 17 1) ∧
    decode 0x3000000000000009 = some (.lzwInit 9) := by decide

/-- The host's numbering of the one 64-bit word. -/
theorem test_decode_table_word :
    decodeTableWord 64 0x4103000000020002 = some (.frameBegin 2 2 0 4) := by decide

/-- Encodings of vector V31. -/
theorem test_encode :
    encode (.bpInsert 16 0xFFFF) = 0x210000000010FFFF ∧
    encode (.frameBegin 3 1 0x1234 1) = 0x4100123400010003 ∧
    encode (.frameBegin 1 1 0 256) = 0x41FF000000010001 ∧
    encode (.gifBegin 2 2 false) = 0x4000000000020002 ∧
    encode (.pal 255 255 255) = 0x4200000000FFFFFF := by decide

/-! ## SB -/

/-- R103's example. -/
theorem test_sb_push_from_reset :
    (after (.sbPush 0x11) State.reset).units.sb.buf = [0x11] ∧
    (after (.sbPush 0x11) State.reset).out = [] := by decide

/-- R103: with 254 bytes waiting the output is 0xFF, the 254 bytes and the byte. -/
theorem test_sb_push_255th :
    let t := after (.sbPush 0xFE) (sbHolds (List.replicate 254 7))
    t.out = 0xFF :: List.replicate 254 7 ++ [0xFE] ∧ t.units.sb = { buf := [], lastLen := 255 } := by
  decide +kernel

/-- R104's example. -/
theorem test_sb_flush :
    let t := after .sbFlush (sbHolds [0x11, 0x22, 0x33])
    t.out = [0x03, 0x11, 0x22, 0x33] ∧ t.units.sb = { buf := [], lastLen := 3 } := by decide

/-- Vector V12. -/
theorem test_sb_flush_empty : (after .sbFlush State.reset).out = [0x00] := by decide

/-- R105's example. -/
theorem test_sb_close :
    (after .sbClose (sbHolds [0x11])).out = [0x01, 0x11] ∧
    (after .sbClose State.reset).out = [] := by decide

/-! ## BP -/

/-- R122's example. -/
theorem test_bp_open : statusPort (after .bpOpen State.reset) = 0x00040000 := by decide

/-- Program P1, step 4. -/
theorem test_bp_insert :
    let t := after (.bpInsert 3 5) (holding (bpHolds 0x0C 6 []))
    t.units.sb.buf = [0x4C] ∧ t.units.bp.acc = 1 ∧ t.units.bp.nbits = 1 := by decide

/-- Vector V6, second insert: 23 bits held, two bytes sent. -/
theorem test_bp_insert_two_bytes :
    let t := after (.bpInsert 16 0xFFFF) (holding (bpHolds 0x7F 7 []))
    t.units.sb.buf = [0xFF, 0xFF] ∧ t.units.bp.acc = 0x7F ∧ t.units.bp.nbits = 7 := by decide

/-- Program P1, step 6. -/
theorem test_bp_flush :
    let t := after .bpFlush (holding (bpHolds 0x15 5 [0x4C, 0x79]))
    t.out = [0x03, 0x4C, 0x79, 0x15] ∧ statusPort t = 0x00080000 := by decide

/-- Vector V5. -/
theorem test_bp_flush_empty : (after .bpFlush (holding (bpHolds 0 0 []))).out = [0x00] := by decide

/-! ## LZW -/

/-- R147's example. -/
theorem test_lzw_init :
    let t := after (.lzwInit 2) (holding (bpHolds 0 0 []))
    statusPort t = 0x00350000 ∧ t.units.bp.acc = 4 ∧ t.units.bp.nbits = 3 ∧
    t.units.lzw.next = 6 ∧ t.units.lzw.dict = lit2 := by decide

/-- Program P2, step 6 at the state after step 4 with the matched buffer `[1,1]`: a miss; code (3,6)
completes the byte 8C, `[1,1,1]` gets 7. -/
theorem test_lzw_encode_miss :
    let t := after (.lzwEncode 1) (holding { p2step5 with
      lzw := { p2step5.lzw with next := 7, dict := lit2 ++ [([1, 1], 6)] } })
    statusPort t = 0x01350000 ∧ t.units.sb.buf = [0x8C] ∧ t.units.lzw.matched = [1] ∧
    Dict.lookup t.units.lzw.dict [1, 1, 1] = some 7 := by decide

/-- R145 by hand: codes 1 and 4 with 12 bits are the number 0x004001, bytes 01 40 00; the width is 3
again, the next code 6, the symbol stays in the matched buffer, its candidate is no key. -/
theorem test_lzw_encode_full :
    let t := after (.lzwEncode 2) (holding fullDict)
    t.units.sb.buf = [0x01, 0x40, 0x00] ∧ t.units.lzw.width = 3 ∧ t.units.lzw.next = 6 ∧
    t.units.lzw.matched = [2] ∧ t.units.lzw.dict = lit2 := by decide

/-- Vector V17, the flush: codes (3,4) held, then (3,3) and (3,5). -/
theorem test_lzw_flush :
    let t := after .lzwFlush (holding { bpHolds 4 3 [] with
      lzw := { state := .matching, s := 2, width := 3, next := 6, dict := lit2, matched := [3] } })
    t.out = [0x02, 0x5C, 0x01] ∧ t.units.lzw.state = .flushed ∧ t.units.bp.state = .flushed := by
  decide

/-! ## CA -/

/-- R183's example. -/
theorem test_gif_begin :
    (after (.gifBegin 2 2 false) State.reset).out =
      [0x47, 0x49, 0x46, 0x38, 0x39, 0x61, 0x02, 0x00, 0x02, 0x00, 0x70, 0x00, 0x00] := by decide

/-- Vector V45, with `LOOP_COUNT` 0x0102 to show its byte order. -/
theorem test_gif_begin_anim :
    (after (.gifBegin 1 1 true) { State.reset with loopCount := 0x0102 }).out =
      [0x47, 0x49, 0x46, 0x38, 0x39, 0x61, 0x01, 0x00, 0x01, 0x00, 0x70, 0x00, 0x00,
       0x21, 0xFF, 0x0B, 0x4E, 0x45, 0x54, 0x53, 0x43, 0x41, 0x50, 0x45, 0x32, 0x2E, 0x30,
       0x03, 0x01, 0x02, 0x01, 0x00] := by decide

/-- R187's example. -/
theorem test_frame_begin :
    let t := after (.frameBegin 2 2 0 4) (caIn .stream 0 0 0)
    t.out = [0x21, 0xF9, 0x04, 0x00, 0x00, 0x00, 0x00, 0x00,
             0x2C, 0x00, 0x00, 0x00, 0x00, 0x02, 0x00, 0x02, 0x00, 0x81] ∧
    t.units.ca = { state := .palette, ncolors := 4, depth := 2, palcount := 0 } := by decide

/-- The depths of vector V44. -/
theorem test_depth :
    [1, 2, 3, 4, 5, 8, 9, 16, 17, 33, 65, 129, 256].map depthOf =
      [1, 1, 2, 2, 3, 3, 4, 4, 5, 6, 7, 8, 8] := by decide +kernel

/-- R190's example, the last entry. -/
theorem test_pal_last :
    let t := after (.pal 0x70 0x80 0x90) (caIn .palette 3 2 2)
    t.out = [0x70, 0x80, 0x90, 0x70, 0x80, 0x90] ∧ t.units.ca.state = .lctDone := by decide

/-- R190's example, an entry before the last. -/
theorem test_pal_first :
    let t := after (.pal 0x10 0x20 0x30) (caIn .palette 3 2 0)
    t.out = [0x10, 0x20, 0x30] ∧ t.units.ca.state = .palette ∧ t.units.ca.palcount = 1 := by decide

/-- R192's example; depth 1 gives the same. -/
theorem test_data_begin :
    let t := after .dataBegin (caIn .lctDone 1 1 1)
    t.out = [0x02] ∧ t.units.lzw.width = 3 ∧ t.units.bp.acc = 4 ∧ t.units.bp.nbits = 3 ∧
    statusPort t = 0x00358000 := by decide

/-- Program P3, step 11. -/
theorem test_pixel :
    let t := after (.pixel 3) (holding p3step10)
    t.units = p3step11 ∧ statusPort t = 0x01458000 := by decide

/-- Program P3, step 12. -/
theorem test_frame_end :
    let t := after .frameEnd (holding p3step11)
    t.out = [0x03, 0x44, 0x34, 0x05, 0x00] ∧ statusPort t = 0x004A2000 := by decide

/-- Vector V43, its FRAME_END: the payload becomes a whole chunk, and one terminator follows. -/
theorem test_frame_end_whole_chunk :
    let t := after .frameEnd (holding { p3step10 with
      sb := { buf := List.replicate 252 9, lastLen := 0 }
      bp := { acc := 0, nbits := 0, state := .opened }
      lzw := { state := .matching, s := 8, width := 9, next := 481, dict := [([223], 223)],
               matched := [223] } })
    t.out = 0xFF :: List.replicate 252 9 ++ [0xDF, 0x02, 0x02, 0x00] := by decide +kernel

/-- R196's example. -/
theorem test_gif_end :
    let t := after .gifEnd (caIn .stream 0 0 0)
    t.out = [0x3B] ∧ statusPort t = 0x0000A000 := by decide

/-! ## Faults, the sink, reset -/

/-- R233, vectors V53 and V51. -/
theorem test_priority :
    statusPort (after (.gifBegin 0 5 false) State.reset) = 0x00000807 ∧
    statusPort (after (.lzwInit 9) State.reset) = 0x0000060B ∧
    statusPort (after (.bpInsert 0 1) State.reset) = 0x0000042F := by decide

/-- Vector V85: the interlock. -/
theorem test_interlock :
    statusPort (after (.lzwEncode 0) (caIn .stream 0 0 0)) = 0x00002625 := by decide

/-- A step takes the word at the head and leaves the rest (R70); vector V32's first row. -/
theorem test_step_illegal :
    step ({ State.reset with host := [.reset] }.withFetchWord 64 0) =
      .next { State.reset with
        faultRegs := { flt := true, cause := 1, op := 0 }, host := [.reset] } := by rfl

/-- Vector V88: `out` and the low bits of STATUS after the third byte fails. -/
theorem test_sink_failure :
    let t := after .sbFlush { sbHolds [0x11, 0x22, 0x33] with sink := [.accept, .accept, .fail] }
    t.out = [0x03, 0x11] ∧ t.faultRegs = { flt := true, cause := 10, op := 0x11 } := by decide

/-- R250, R261: the byte stays offered, a reset withdraws it and keeps `out`. -/
theorem test_silent_sink_and_reset :
    let t := after .sbFlush { sbHolds [0x11] with sink := [.accept, .stall] }
    t.out = [0x01] ∧ t.offered = some 0x11 ∧ cmdReady t = false ∧
    (hardReset t).out = [0x01] ∧ statusPort (hardReset t) = 0 := by decide

/-! ## Witnesses: the hypotheses of each statement can be met -/

theorem witness_OperandsAreTheirFields :
    decode 0x41FF123400010003 = some (.frameBegin 3 1 0x1234 256) := by decide

theorem witness_DecodeFollowsMatchAndMask :
    (∃ r ∈ opcodeRows, r.Selects 0x41FF123400010003) ∧
    (∀ r ∈ opcodeRows, ¬r.Selects 0x1000000000000100) := by decide

theorem witness_DecodeOfEncodeIsIdentity :
    Instr.wellFormed (.frameBegin 0 0xFFFF 0x8000 256) = true ∧
    Instr.wellFormed (.frameBegin 0 0xFFFF 0x8000 1) = true := by decide

theorem witness_DecodedWordIsItsEncoding :
    decode 0x210000000010FFFF = some (.bpInsert 16 0xFFFF) := by decide

theorem witness_StepRunsDecodedCommand :
    ({ State.reset with host := [.command 0x2000000000000000, .reset] } : State).host =
      .command 0x2000000000000000 :: [.reset] ∧
    decode 0x2000000000000000 = some .bpOpen := by decide

theorem witness_StepWaitsWithoutEvent : (holding p3step10).host = [] := rfl

theorem witness_ResetGivesTheResetValues :
    ({ holding p3step10 with host := [.reset], offered := some 3 } : State).host =
      .reset :: [] := rfl

theorem witness_StatusWordHasTheseFields :
    (sbHolds (List.replicate 255 1)).offered = none ∧
    (sbHolds (List.replicate 255 1)).units.sb.buf.length ≤ 255 := by decide +kernel

theorem witness_IllegalWordRaisesIllegalCmd :
    let s : State := { holding p3step10 with host := [.command 0x4200000001000000] }
    Ready s ∧ s.host = .command 0x4200000001000000 :: [] ∧
    ∀ r ∈ opcodeRows, ¬r.Selects 0x4200000001000000 := by decide

/-- GIF_BEGIN over an open session with a zero size fails three checks; the least cause is 3. -/
theorem witness_LowestFailingCauseIsRaised :
    let s := holding { p2step5 with sb := { buf := [1], lastLen := 0 } }
    Ready s ∧ Violates (.gifBegin 0 5 false) s.units 3 ∧
    ∀ c, Violates (.gifBegin 0 5 false) s.units c → 3 ≤ c := by
  refine ⟨by decide, ⟨_, List.mem_cons_of_mem _ List.mem_cons_self, .inl rfl⟩, ?_⟩
  rintro c ⟨p, hm, hp⟩
  simp only [checkRow, List.mem_cons, List.not_mem_nil, or_false, Prod.mk.injEq] at hm
  rcases hm with ⟨rfl, rfl⟩ | ⟨rfl, rfl⟩ | ⟨rfl, rfl⟩ | ⟨rfl, rfl⟩ | ⟨rfl, rfl⟩
  · exact absurd (.inl rfl) hp
  all_goals decide

theorem witness_FaultedStateDiscardsEveryWord :
    let s : State := { State.reset with
      faultRegs := { flt := true, cause := 7, op := 0x22 }, host := [.command 0] }
    s.offered = none ∧ s.faultRegs.flt = true ∧ s.host = .command 0 :: [] := by decide

theorem witness_OnlyResetLeavesTheFaultedState :
    let s : State := { State.reset with
      faultRegs := { flt := true, cause := 7, op := 0x22 }, host := [.reset] }
    s.faultRegs.flt = true ∧ step s = .next State.reset := ⟨rfl, rfl⟩

/-- SB_FLUSH passes its one check when the host may use the units. -/
theorem sbFlush_passes (u : Units) (h : UnitAccess u) : Passes .sbFlush u := by
  rintro c ⟨p, hm, hp⟩
  simp only [checkRow, List.mem_singleton, Prod.mk.injEq] at hm
  obtain ⟨rfl, rfl⟩ := hm
  exact hp h

theorem witness_SinkFailureRaisesSinkError :
    let s := sbHolds [0x11, 0x22]
    let t := after .sbFlush s
    Ready s ∧ Passes .sbFlush s.units ∧ exec .sbFlush { s with sink := [] } = .next t ∧
    t.out = s.out ++ [0x02, 0x11, 0x22] ∧ 2 < [0x02, 0x11, 0x22].length :=
  ⟨by decide, sbFlush_passes _ (by decide), rfl, by decide, by decide⟩

theorem witness_ResetAbandonsTheCommandInProgress :
    let s := sbHolds []
    let t := after .sbFlush s
    Ready s ∧ Passes .sbFlush s.units ∧ exec .sbFlush { s with sink := [] } = .next t ∧
    t.out = s.out ++ [0x00] ∧ 0 < [0x00].length :=
  ⟨by decide, sbFlush_passes _ (by decide), rfl, by decide, by decide⟩

theorem witness_CommandBehindSilentSinkIsStuck :
    let s : State := { State.reset with offered := some 0x11, host := [.command 0] }
    s.offered = some 0x11 ∧ s.host = .command 0 :: [] := by decide

theorem witness_PassingCommandCompletes :
    let s : State := { sbHolds [0x11] with sink := [.accept, .accept] }
    Ready s ∧ Passes .sbFlush s.units ∧ ∀ x ∈ s.sink, x = .accept :=
  ⟨by decide, sbFlush_passes _ (by decide), by decide⟩

theorem witness_SbPushBuffersOrWritesFullChunk :
    (Ready (sbHolds (List.replicate 253 1)) ∧ UnitAccess (sbHolds (List.replicate 253 1)).units ∧
      (sbHolds (List.replicate 253 1)).units.sb.buf.length < 254) ∧
    (Ready (sbHolds (List.replicate 254 1)) ∧ UnitAccess (sbHolds (List.replicate 254 1)).units ∧
      (sbHolds (List.replicate 254 1)).units.sb.buf.length = 254 ∧
      SinkTakes (sbHolds (List.replicate 254 1)) 256) := by decide +kernel

theorem witness_SbFlushWritesOneChunk :
    let s : State := { sbHolds (List.replicate 254 1) with
      sink := List.replicate 255 .accept ++ [.fail] }
    Ready s ∧ UnitAccess s.units ∧ s.units.sb.buf.length ≤ 254 ∧
    SinkTakes s (s.units.sb.buf.length + 1) := by decide +kernel

theorem witness_SbCloseFlushesOnlyWhenNotEmpty :
    (Ready State.reset ∧ UnitAccess State.reset.units ∧ State.reset.units.sb.buf = []) ∧
    (Ready (sbHolds [1]) ∧ UnitAccess (sbHolds [1]).units ∧
      0 < (sbHolds [1]).units.sb.buf.length ∧ (sbHolds [1]).units.sb.buf.length ≤ 254 ∧
      SinkTakes (sbHolds [1]) ((sbHolds [1]).units.sb.buf.length + 1)) := by decide

theorem witness_PushesThenFlushWriteTheChunks :
    Ready State.reset ∧ UnitAccess State.reset.units ∧ State.reset.units.sb.buf = [] ∧
    State.reset.sink = [] := by decide

theorem witness_BpOpenStartsFreshSession :
    (Ready State.reset ∧ UnitAccess State.reset.units ∧ State.reset.units.bp.state ≠ .opened) ∧
    (Ready (holding p2step5) ∧ UnitAccess p2step5 ∧ p2step5.bp.state = .opened) ∧
    (Ready (holding p3step10) ∧ ¬UnitAccess p3step10) := by decide

theorem witness_BpInsertAppendsTheLowBits :
    let s := holding (bpHolds 0x7F 7 (List.replicate 254 1))
    Ready s ∧ UnitAccess s.units ∧ s.units.bp.state = .opened ∧ 1 ≤ (16 : BitVec 5).toNat ∧
    (16 : BitVec 5).toNat ≤ 16 ∧ s.units.bp.Ok ∧ s.units.sb.Ok ∧
    SinkTakes s (codesOut s.units [(16, 0xFFFF)]).length := by decide +kernel

theorem witness_BpFlushPadsAndForwardsTheFlush :
    let s := holding (bpHolds 0x40 7 (List.replicate 254 1))
    Ready s ∧ UnitAccess s.units ∧ s.units.bp.state = .opened ∧ s.units.bp.Ok ∧ s.units.sb.Ok ∧
    SinkTakes s (flushOut s.units []).length := by decide +kernel

theorem witness_InsertedBitsAppearInOrder :
    let s := holding (bpHolds 0 0 [])
    Ready s ∧ UnitAccess s.units ∧ s.units.bp = { acc := 0, nbits := 0, state := .opened } ∧
    s.units.sb.buf = [] ∧ s.sink = [] ∧
    ∀ p ∈ [((1 : BitVec 5), (1 : Half)), (16, 0xFFFF)], 1 ≤ p.1.toNat ∧ p.1.toNat ≤ 16 := by
  simp only [List.forall_mem_cons, List.not_mem_nil, false_imp_iff, implies_true, and_true]
  decide

theorem witness_LzwInitSeedsAndWritesClearCode :
    let s := holding (bpHolds 0x7F 7 (List.replicate 254 1))
    Ready s ∧ UnitAccess s.units ∧ s.units.lzw.state ≠ .matching ∧ 2 ≤ (8 : BitVec 4).toNat ∧
    (8 : BitVec 4).toNat ≤ 8 ∧ s.units.bp.state = .opened ∧ s.units.bp.Ok ∧ s.units.sb.Ok ∧
    SinkTakes s (codesOut s.units [(9, 256)]).length := by decide +kernel

theorem witness_EncodeHitExtendsTheMatch :
    (let s := holding { p2step5 with lzw := { p2step5.lzw with matched := [1] } }
     Ready s ∧ EncodeReady (.lzwEncode 1) 1 s.units ∧
     (Dict.lookup s.units.lzw.dict (s.units.lzw.matched ++ [1])).isSome = true) ∧
    (let s := holding { p3step10 with lzw := { p3step10.lzw with matched := [1] } }
     Ready s ∧ EncodeReady (.pixel 2) 2 s.units ∧
     (Dict.lookup s.units.lzw.dict (s.units.lzw.matched ++ [2])).isSome = true) :=
  ⟨⟨by decide, ⟨by decide, .inl (by decide)⟩, by decide⟩,
   ⟨by decide, ⟨by decide, .inr (by decide)⟩, by decide⟩⟩

theorem witness_EncodeMissAssignsTheNextCode :
    (let s := holding p2step5
     Ready s ∧ EncodeReady (.lzwEncode 1) 1 s.units ∧
     Dict.lookup s.units.lzw.dict (s.units.lzw.matched ++ [1]) = none ∧
     Dict.lookup s.units.lzw.dict s.units.lzw.matched = some 6 ∧
     s.units.lzw.next.toNat ≤ 4095 ∧ s.units.bp.Ok ∧ s.units.sb.Ok ∧
     SinkTakes s (codesOut s.units [(3, 6)]).length) ∧
    (let s := holding p3step10
     Ready s ∧ EncodeReady (.pixel 3) 3 s.units ∧
     Dict.lookup s.units.lzw.dict (s.units.lzw.matched ++ [3]) = none ∧
     Dict.lookup s.units.lzw.dict s.units.lzw.matched = some 2 ∧
     s.units.lzw.next.toNat ≤ 4095 ∧ s.units.bp.Ok ∧ s.units.sb.Ok ∧
     SinkTakes s (codesOut s.units [(3, 2)]).length) :=
  ⟨⟨by decide, ⟨by decide, .inl (by decide)⟩, by decide⟩,
   ⟨by decide, ⟨by decide, .inr (by decide)⟩, by decide⟩⟩

theorem witness_EncodeMissOnFullDictionaryClears :
    let s := holding fullDict
    Ready s ∧ EncodeReady (.lzwEncode 2) 2 s.units ∧
    Dict.lookup s.units.lzw.dict (s.units.lzw.matched ++ [2]) = none ∧
    Dict.lookup s.units.lzw.dict s.units.lzw.matched = some 1 ∧
    s.units.lzw.next.toNat = 4096 ∧ s.units.bp.Ok ∧ s.units.sb.Ok ∧
    SinkTakes s (codesOut s.units [(12, 1), (12, 4)]).length :=
  ⟨by decide, ⟨by decide, .inl (by decide)⟩, by decide⟩

theorem witness_LzwFlushWritesTheClosingCodes :
    let s := holding p2step5
    Ready s ∧ UnitAccess s.units ∧ s.units.lzw.state = .matching ∧ s.units.bp.state = .opened ∧
    s.units.bp.Ok ∧ s.units.sb.Ok ∧
    (s.units.lzw.matched ≠ [] →
      Dict.lookup s.units.lzw.dict s.units.lzw.matched = some 6) ∧
    SinkTakes s (flushOut s.units (closingCodes s.units.lzw 6)).length := by decide

theorem witness_EmptySessionWritesClearAndEoi :
    let s := holding (bpHolds 0 0 [])
    Ready s ∧ UnitAccess s.units ∧ s.units.lzw.state ≠ .matching ∧
    s.units.bp = { acc := 0, nbits := 0, state := .opened } ∧ s.units.sb.buf = [] ∧
    s.sink = [] := by decide

theorem witness_NewSessionForgetsTheOldOne :
    (let s := holding (bpHolds 0 0 [])
     Ready s ∧ UnitAccess s.units ∧ s.units.lzw.state ≠ .matching ∧
     { p2step5.lzw with state := LzwState.flushed }.state ≠ .matching ∧
     2 ≤ (2 : BitVec 4).toNat ∧ (2 : BitVec 4).toNat ≤ 8 ∧ s.units.bp.state = .opened) ∧
    Ready (caIn .lctDone 4 2 4) ∧ (caIn .lctDone 4 2 4).units.ca.state = .lctDone := by decide

theorem witness_GifBeginWritesTheStreamHeader :
    let s : State := { State.reset with sink := List.replicate 32 .accept ++ [.fail] }
    Ready s ∧ UnitAccess s.units ∧ (0xFFFF : Half) ≠ 0 ∧ (1 : Half) ≠ 0 ∧
    s.units.lzw.state ≠ .matching ∧ s.units.bp.state ≠ .opened ∧ s.units.sb.buf = [] ∧
    SinkTakes s 32 := by decide

theorem witness_FrameBeginWritesTheFrameHeader :
    (let s := caIn .stream 0 0 0
     Ready s ∧ s.units.ca.state = .stream ∧ (1 : Half) ≠ 0 ∧ SinkTakes s 18) ∧
    (1 ≤ (256 : BitVec 9).toNat ∧ (256 : BitVec 9).toNat ≤ 256 ∧ 1 ≤ 8 ∧
      (256 : BitVec 9).toNat ≤ 2 ^ 8 ∧ (8 = 1 ∨ 2 ^ (8 - 1) < (256 : BitVec 9).toNat)) ∧
    (1 ≤ (1 : BitVec 9).toNat ∧ (1 : BitVec 9).toNat ≤ 2 ^ 1 ∧
      (1 = 1 ∨ 2 ^ (1 - 1) < (1 : BitVec 9).toNat)) := by decide

theorem witness_PalWritesTheEntryAndPadsTheTable :
    (Ready (caIn .lctDone 256 8 256) ∧ (caIn .lctDone 256 8 256).units.ca.state ≠ .palette) ∧
    (let s := caIn .palette 256 8 254
     Ready s ∧ s.units.ca.state = .palette ∧
     s.units.ca.palcount.toNat + 1 < s.units.ca.ncolors.toNat ∧ SinkTakes s 3) ∧
    (let s := caIn .palette 129 8 128
     Ready s ∧ s.units.ca.state = .palette ∧
     s.units.ca.palcount.toNat + 1 = s.units.ca.ncolors.toNat ∧ SinkTakes s (3 * 128)) := by decide

theorem witness_DataBeginOpensTheImageData :
    (Ready (caIn .palette 256 8 255) ∧ (caIn .palette 256 8 255).units.ca.state ≠ .lctDone) ∧
    (let s := caIn .lctDone 256 8 256
     Ready s ∧ s.units.ca.state = .lctDone ∧ s.units.sb.Ok ∧ s.units.ca.depth.toNat ≤ 8 ∧
     SinkTakes s 2) := by decide

theorem witness_FrameEndClosesTheImageData :
    (Ready State.reset ∧ State.reset.units.ca.state ≠ .pixels) ∧
    (let s := holding p3step11
     Ready s ∧ s.units.ca.state = .pixels ∧ s.units.bp.Ok ∧ s.units.sb.Ok ∧
     (s.units.lzw.matched ≠ [] → Dict.lookup s.units.lzw.dict s.units.lzw.matched = some 3) ∧
     SinkTakes s 5) := by decide

theorem witness_GifEndWritesTheTrailer :
    (Ready State.reset ∧ State.reset.units.ca.state ≠ .stream) ∧
    (Ready (caIn .stream 0 0 0) ∧ (caIn .stream 0 0 0).units.ca.state = .stream ∧
      SinkTakes (caIn .stream 0 0 0) 1) := by decide

/-- The invariant from its parts, each small enough to decide. -/
theorem inv_of_ok {s : State} (hu : s.units.Ok) (hf : s.faultRegs.Ok)
    (ho : s.offered ≠ none → s.faultRegs.flt = false) : s.Inv := ⟨hf, ho, fun _ => hu⟩

theorem witness_FrameIsHeaderTableAndDataBlock :
    let s := caIn .stream 0 0 0
    Ready s ∧ s.Inv ∧ s.units.ca.state = .stream ∧ s.sink = [] ∧ (1 : Half) ≠ 0 ∧
    ([] : List (Byte × Byte × Byte)).length + 1 ≤ 256 ∧ 1 ≤ 1 ∧
    ([] : List (Byte × Byte × Byte)).length + 1 ≤ 2 ^ 1 ∧ (1 = 1 ∨ 2 ^ (1 - 1) < 1) ∧
    ∀ k ∈ [(3 : Byte)], k.toNat < 2 ^ max 2 1 :=
  ⟨by decide, inv_of_ok ⟨by decide, by decide, by decide, by decide⟩ (by decide) (by decide),
    by decide⟩

/-- The invariant holds in the middle of a frame, with a word pending. -/
theorem witness_StepKeepsTheInvariant :
    let s : State := { holding p3step10 with host := [.command 0x4400000000000003] }
    s.Inv ∧ step s = .next (holding p3step11) :=
  ⟨inv_of_ok ⟨by decide, by decide, by decide, by decide⟩ (by decide) (by decide), by rfl⟩

theorem witness_EveryCodeFitsTheWidth : p3step11.lzw.SessionOk := by decide

theorem witness_OutOnlyGrowsAndIsNeverRead :
    step { caIn .stream 0 0 0 with host := [.command 0x4600000000000000] } =
      .next { caIn .done 0 0 0 with out := [0x3B] } ∧
    step { caIn .stream 0 0 0 with host := [.reset], out := [0x3B] } =
      .next { State.reset with out := [0x3B] } := ⟨by rfl, by rfl⟩

theorem witness_SequencingRegistersMoveByTheTables :
    exec .gifEnd (caIn .stream 0 0 0) = .next { caIn .done 0 0 0 with out := [0x3B] } ∧
    Specified (caIn .stream 0 0 0) ∧ Specified { caIn .done 0 0 0 with out := [0x3B] } :=
  ⟨by rfl, by decide, by decide⟩

theorem witness_CommandsWriteOnlyTheirRegisters :
    exec (.pixel 3) (holding p3step10) = .next (holding p3step11) ∧
    Specified (holding p3step10) ∧ Specified (holding p3step11) := ⟨by rfl, by decide, by decide⟩

theorem witness_WorkPerCommandIsBounded :
    (holding p3step11).Inv ∧ Specified (holding p3step11) ∧
    Instr.wellFormed .frameEnd = true ∧
    exec .frameEnd (holding p3step11) = .next (after .frameEnd (holding p3step11)) :=
  ⟨inv_of_ok ⟨by decide, by decide, by decide, by decide⟩ (by decide) (by decide), by decide,
    by decide, by rfl⟩

end Sys2Proof.Tests
end

section
/-!
SUPPORT. What one step does for each kind of host event, the status word as a number, and how `out`
depends on the state a step starts from; with them the statements of 10_state.md that speak of reset
(R39), of STATUS (R34, R35) and of `out` (R36).
-/

namespace Sys2Proof.Machine

/-! ## The step, for each next event of the host -/

theorem step_of_host_nil (s : State) (h : s.host = []) : step s = .next s := by
  simp [step, advance, h]

theorem step_of_reset (s : State) (events : List HostEvent) (h : s.host = .reset :: events) :
    step s = .next (hardReset { s with host := events }) := by
  simp [step, advance, h]

theorem step_of_command (s : State) (w : CmdWord) (events : List HostEvent)
    (h : s.host = .command w :: events) : step s = present w { s with host := events } := by
  simp [step, advance, h]

/-! ## The status word -/

/-- Putting `y` below `x` adds `y` to `x` times the weight of `y`'s width. -/
theorem toNat_append_eq_add {m n : Nat} (x : BitVec m) (y : BitVec n) :
    (x ++ y).toNat = x.toNat * 2 ^ n + y.toNat := by
  rw [BitVec.toNat_append, ← Nat.shiftLeft_add_eq_or_of_lt y.isLt, Nat.shiftLeft_eq]

/-- The status word as the sum of its fields, each at the weight of its lowest bit (R34). -/
theorem statusWord_toNat (u : Units) (f : FaultRegs) :
    (statusWord u f).toNat =
      f.flt.toNat + f.cause.toNat * 2 + f.op.toNat * 2 ^ 5 + u.ca.state.code.toNat * 2 ^ 13 +
      u.lzw.state.code.toNat * 2 ^ 16 + u.bp.state.code.toNat * 2 ^ 18 +
      u.lzw.width.toNat * 2 ^ 20 + u.sb.count.toNat * 2 ^ 24 := by
  simp only [statusWord, toNat_append_eq_add, BitVec.toNat_ofBool]
  ring

/-- Each field of the status word is read back from its place (R34). -/
theorem statusWord_fields (u : Units) (f : FaultRegs) :
    (statusWord u f).toNat % 2 = f.flt.toNat ∧
    (statusWord u f).toNat / 2 % 2 ^ 4 = f.cause.toNat ∧
    (statusWord u f).toNat / 2 ^ 5 % 2 ^ 8 = f.op.toNat ∧
    (statusWord u f).toNat / 2 ^ 13 % 2 ^ 3 = u.ca.state.code.toNat ∧
    (statusWord u f).toNat / 2 ^ 16 % 2 ^ 2 = u.lzw.state.code.toNat ∧
    (statusWord u f).toNat / 2 ^ 18 % 2 ^ 2 = u.bp.state.code.toNat ∧
    (statusWord u f).toNat / 2 ^ 20 % 2 ^ 4 = u.lzw.width.toNat ∧
    (statusWord u f).toNat / 2 ^ 24 = u.sb.count.toNat := by
  have hflt := f.flt.toNat_lt
  have hcause := f.cause.isLt
  have hop := f.op.isLt
  have hca := u.ca.state.code.isLt
  have hlzw := u.lzw.state.code.isLt
  have hbp := u.bp.state.code.isLt
  have hwidth := u.lzw.width.isLt
  rw [statusWord_toNat]
  omega

/-- `sb_count` is the number of bytes in SB while its eight bits hold that number (R23). -/
theorem count_toNat (sb : Sb) (h : sb.buf.length ≤ 255) : sb.count.toNat = sb.buf.length := by
  simp only [Sb.count, BitVec.toNat_ofNat]
  omega

theorem statusPort_of_offered_none (s : State) (h : s.offered = none) :
    statusPort s = statusWord s.units s.faultRegs := by
  simp [statusPort, h]

/-- Settles O9: the status word is a sum of fields that do not overlap, and the codes of the three
state registers are those of R35. -/
theorem statusWordHasTheseFields : Obligations.StatusWordHasTheseFields := by
  intro s ho hsb
  obtain ⟨hflt, hcause, hop, hca, hlzw, hbp, hwidth, hcount⟩ :=
    statusWord_fields s.units s.faultRegs
  rw [statusPort_of_offered_none s ho]
  refine ⟨hflt.trans ?_, hcause, hop, hca.trans ?_, hlzw.trans ?_, hbp.trans ?_, hwidth,
    hcount.trans (count_toNat _ hsb)⟩
  · cases s.faultRegs.flt <;> rfl
  · cases s.units.ca.state <;> rfl
  · cases s.units.lzw.state <;> rfl
  · cases s.units.bp.state <;> rfl

/-! ## Reset -/

/-- `STATUS` reads 0 after a reset (R39). -/
theorem statusPort_hardReset (s : State) : statusPort (hardReset s) = 0 := by
  rw [statusPort_of_offered_none _ (hardReset_offered s), hardReset_units, hardReset_faultRegs]
  rfl

/-- Settles O8: the step is `hardReset`, whose registers are those of R39's table. -/
theorem resetGivesTheResetValues : Obligations.ResetGivesTheResetValues := by
  refine ⟨fun s events h => ?_, rfl, statusPort_hardReset State.reset⟩
  exact ⟨_, step_of_reset s events h, rfl, statusPort_hardReset _⟩

/-! ## `out` -/

/-- From `s` with any `out`, `f` goes on to `t` with `bytes` behind that `out`: `f` adds `bytes` and
does not read what `out` holds (R36). -/
def AppendsOut (f : State → Host.Outcome State Fault Refusal) (s t : State) (bytes : List Byte) :
    Prop :=
  ∀ other, f { s with out := other } = .next { t with out := other ++ bytes }

/-- What is added for every `out` is added for the one `s` has. -/
theorem AppendsOut.out_eq {f : State → Host.Outcome State Fault Refusal} {s t : State}
    {bytes : List Byte} (h : AppendsOut f s t bytes) (hf : f s = .next t) :
    t.out = s.out ++ bytes := by
  have ht : Host.Outcome.next t = .next { t with out := s.out ++ bytes } := hf.symm.trans (h s.out)
  exact congrArg State.out (Host.Outcome.next.inj ht)

/-- The end of a command adds the bytes the sink took, whatever `out` holds. -/
theorem settle_with_out (op : BitVec 8) (a : Act) (s : State) (other : List Byte) :
    settle op a { s with out := other } =
      { settle op a s with out := other ++ (deliver a.offers s.sink).taken } := by
  cases h : (deliver a.offers s.sink).ended <;> simp [settle, h, raise, forgetUnits]

/-- A command adds nothing when it is discarded or a check of it raises, else what the sink took. -/
theorem exec_appendsOut (i : Instr) (s t : State) (h : exec i s = .next t) :
    ∃ bytes, AppendsOut (exec i) s t bytes := by
  obtain ⟨ho, ⟨hf, rfl⟩ | ⟨hf, c, hc, rfl⟩ | ⟨hf, hc, rfl⟩⟩ := exec_next i s t h
  · refine ⟨[], fun other => ?_⟩
    rw [exec_faulted i { t with out := other } ho hf, List.append_nil]
  · refine ⟨[], fun other => ?_⟩
    rw [exec_raises i { s with out := other } c ⟨ho, hf⟩ hc, List.append_nil]
    rfl
  · refine ⟨(deliver (ran i s).offers s.sink).taken, fun other => ?_⟩
    rw [exec_settles i { s with out := other } ⟨ho, hf⟩ hc, ← settle_with_out]
    rfl

/-- An illegal word adds nothing. -/
theorem illegalWord_appendsOut (w : CmdWord) (s t : State) (h : illegalWord w s = .next t) :
    AppendsOut (illegalWord w) s t [] := by
  intro other
  rw [List.append_nil]
  obtain ⟨ho, ⟨hf, rfl⟩ | ⟨hf, rfl⟩⟩ := whenReady_next s t _ h
  · exact whenReady_faulted { t with out := other } _ ho hf
  · exact whenReady_ready { s with out := other } _ ⟨ho, hf⟩

theorem present_appendsOut (w : CmdWord) (s t : State) (h : present w s = .next t) :
    ∃ bytes, AppendsOut (present w) s t bytes := by
  cases hw : decode w with
  | none =>
    have hp : present w = illegalWord w := funext fun s => by simp [present, hw]
    rw [hp] at h ⊢
    exact ⟨[], illegalWord_appendsOut w s t h⟩
  | some i =>
    have hp : present w = exec i := funext fun s => by simp [present, hw]
    rw [hp] at h ⊢
    exact exec_appendsOut i s t h

/-- A wait and a reset add nothing; a word adds what presenting it adds. -/
theorem step_appendsOut (s t : State) (h : step s = .next t) :
    ∃ bytes, AppendsOut step s t bytes ∧
      (∀ events, s.host = .reset :: events → bytes = []) := by
  obtain ⟨hh, rfl⟩ | ⟨events, hh, rfl⟩ | ⟨w, events, hh, hp⟩ := step_next s t h
  · refine ⟨[], fun other => ?_, fun _ _ => rfl⟩
    rw [step_of_host_nil { t with out := other } hh, List.append_nil]
  · refine ⟨[], fun other => ?_, fun _ _ => rfl⟩
    rw [step_of_reset { s with out := other } events hh, List.append_nil]
    rfl
  · obtain ⟨bytes, hb⟩ := present_appendsOut w { s with host := events } t hp
    refine ⟨bytes, fun other => ?_, fun events' hr => by simp [hh] at hr⟩
    exact (step_of_command { s with out := other } w events hh).trans (hb other)

/-- Settles O43: a step ends with what the event at the head of the queue does, and no event's effect,
nor the bytes the sink takes of a command's, depends on what `out` holds. -/
theorem outOnlyGrowsAndIsNeverRead : Obligations.OutOnlyGrowsAndIsNeverRead := by
  intro s t h
  obtain ⟨bytes, happ, hreset⟩ := step_appendsOut s t h
  exact ⟨bytes, happ.out_eq h, hreset, happ⟩

end Sys2Proof.Machine
end

section
/-!
SUPPORT. The opcode byte and the reserved bits of a word that decodes, and the row of the opcode table
(R84) that such a word is selected by; with them the statement of R85 on illegal words.
-/

namespace Sys2Proof.Machine

/-! ## The rows of the opcode table -/

/-- The number of operand bits of a command's format, which are its lowest: `cmd[55:n]` is reserved
(R81). -/
def operandWidth : Instr → Nat
  | .sbPush _ | .lzwEncode _ | .pixel _ => 8
  | .bpInsert _ _ => 21
  | .lzwInit _ => 4
  | .gifBegin _ _ _ => 33
  | .frameBegin _ _ _ _ => 56
  | .pal _ _ _ => 24
  | .sbFlush | .sbClose | .bpOpen | .bpFlush | .lzwFlush | .dataBegin | .frameEnd | .gifEnd => 0

theorem operandWidth_le (i : Instr) : operandWidth i ≤ 56 := by
  cases i <;> simp [operandWidth]

/-- The row of a command: its opcode byte above zeros, the operand bits left out by the mask. -/
def rowOf (i : Instr) : OpcodeRow where
  opcode := i.opcode.toNat
  mtch := (i.opcode ++ 0#56).cast (by decide)
  mask := BitVec.allOnes 64 <<< operandWidth i

/-- The opcode table of 30_encoding.md has the row of every command. -/
theorem rowOf_mem_opcodeRows (i : Instr) : rowOf i ∈ opcodeRows := by
  cases i <;> simp only [rowOf, Instr.opcode, operandWidth] <;> decide

theorem field_getLsbD (w : CmdWord) (lo n k : Nat) :
    (CmdWord.field w lo n).getLsbD k = (decide (k < n) && w.getLsbD (lo + k)) :=
  BitVec.getLsbD_extractLsb' lo n w k

/-- Under a mask that leaves out the lowest `n` bits, a word with `cmd[55:n]` 0 is its opcode byte
above zeros. The bits are compared by region: operands, reserved bits, opcode. -/
theorem and_mask_eq_opcode (w : CmdWord) (n : Nat) (hn : n ≤ 56)
    (hres : CmdWord.field w n (56 - n) = 0) :
    w &&& BitVec.allOnes 64 <<< n = (opcodeOf w ++ 0#56).cast (by decide) := by
  apply BitVec.eq_of_getLsbD_eq
  intro k hk
  simp only [opcodeOf, BitVec.getLsbD_and, BitVec.getLsbD_shiftLeft, BitVec.getLsbD_allOnes,
    BitVec.getLsbD_cast, BitVec.getLsbD_append, BitVec.getLsbD_zero, field_getLsbD]
  by_cases hoperand : k < n
  · have hlow : k < 56 := by omega
    simp [hoperand, hlow]
  by_cases hreserved : k < 56
  · have hbit : (CmdWord.field w n (56 - n)).getLsbD (k - n) = false := by simp [hres]
    have hin : k - n < 56 - n := by omega
    have hpos : n + (k - n) = k := by omega
    have hzero : w.getLsbD k = false := by
      simpa [hres, hin, hpos] using field_getLsbD w n (56 - n) (k - n)
    simp [hreserved, hzero]
  · have hin : k - 56 < 8 := by omega
    have hpos : 56 + (k - 56) = k := by omega
    have hmask : k - n < 64 := by omega
    simp [hk, hoperand, hreserved, hin, hpos, hmask]

/-! ## A word that decodes -/

/-- The word has a command's opcode byte and its reserved bits are 0. -/
def HasFormOf (w : CmdWord) (i : Instr) : Prop :=
  opcodeOf w = i.opcode ∧ CmdWord.field w (operandWidth i) (56 - operandWidth i) = 0

/-- A word of a command's form is selected by the command's row (R84). -/
theorem HasFormOf.selects {w : CmdWord} {i : Instr} (h : HasFormOf w i) : (rowOf i).Selects w := by
  obtain ⟨hop, hres⟩ := h
  have hmask := and_mask_eq_opcode w (operandWidth i) (operandWidth_le i) hres
  rwa [hop] at hmask

/-- The opcode byte selects the format, and each format checks the bits it reserves. -/
theorem decode_hasFormOf (w : CmdWord) (i : Instr) (h : decode w = some i) : HasFormOf w i := by
  unfold decode at h
  split at h
  -- FRAME_BEGIN, whose format reserves nothing
  case h_11 hop =>
    obtain rfl := Option.some.inj h
    exact ⟨BitVec.eq_of_toNat_eq hop, BitVec.of_length_zero⟩
  -- an unknown opcode
  case h_17 => cases h
  all_goals
    rename_i hop
    simp only [formatZ, formatB, formatI, formatS, formatG, formatP, Option.ite_none_right_eq_some,
      Option.some.injEq] at h
    obtain ⟨hres, rfl⟩ := h
    exact ⟨BitVec.eq_of_toNat_eq hop, hres⟩

/-- A word that no row selects is illegal (R85). -/
theorem decode_eq_none_of_no_row (w : CmdWord) (h : ∀ r ∈ opcodeRows, ¬r.Selects w) :
    decode w = none := by
  rw [Option.eq_none_iff_forall_ne_some]
  intro i hi
  exact h (rowOf i) (rowOf_mem_opcodeRows i) (decode_hasFormOf w i hi).selects

/-! ## An illegal word -/

/-- The opcode byte is the word's top byte (R80). -/
theorem opcodeOf_eq_ofNat (w : CmdWord) : opcodeOf w = BitVec.ofNat 8 (w.toNat / 2 ^ 56) := by
  simp [opcodeOf, CmdWord.field, BitVec.extractLsb', Nat.shiftRight_eq_div_pow]

/-- In a ready state a word that does not decode raises ILLEGAL_CMD (R85). -/
theorem present_of_decode_none (w : CmdWord) (s : State) (hs : Ready s) (hw : decode w = none) :
    present w s = .next (raise .illegalCmd (opcodeOf w) s) := by
  simp [present, hw, illegalWord, whenReady_ready s _ hs]

/-- Settles O10: a word that no row selects does not decode, so presenting it raises ILLEGAL_CMD. -/
theorem illegalWordRaisesIllegalCmd : Obligations.IllegalWordRaisesIllegalCmd := by
  intro s w events hs hhost hrow
  rw [step_of_command s w events hhost,
    present_of_decode_none w { s with host := events } hs (decode_eq_none_of_no_row w hrow),
    opcodeOf_eq_ofNat]
  rfl

end Sys2Proof.Machine
end

section
/-!
SUPPORT. What running a command of the Sub-block Writer comes to: the whole effect of SBFlush, SBPush
and SBClose, each in the cases of its rule; with it the statements of 40_subblock_writer.md on
SB_PUSH (R101), SB_FLUSH (R100) and SB_CLOSE (R102).
-/

namespace Sys2Proof.Machine

/-! ## The procedures -/

/-- SBFlush writes the last chunk and empties the buffer (R100). -/
theorem sbFlush_eq (a : Act) :
    sbFlush a =
      { units := { a.units with
          sb := { buf := [], lastLen := BitVec.ofNat 8 a.units.sb.buf.length } },
        offers := a.offers ++ lastChunk a.units.sb } := by
  simp [sbFlush, Act.setSb, Act.emit, Act.emitAll, lastChunk, count_eq]

/-- SBPush with fewer than 254 bytes waiting only buffers the byte (R101). -/
theorem sbPush_of_room (b : Byte) (a : Act) (h : a.units.sb.buf.length < 254) :
    sbPush b a =
      { a with units := { a.units with
          sb := { a.units.sb with buf := a.units.sb.buf ++ [b] } } } := by
  have hroom : (a.units.sb.buf ++ [b]).length < 255 := by simp; omega
  rw [sbPush_eq b a (by omega), chunkRest, chunkOut, if_pos hroom, if_pos hroom, List.append_nil]

/-- SBPush of the 255th byte writes the full chunk (R101). -/
theorem sbPush_of_last (b : Byte) (a : Act) (h : a.units.sb.buf.length = 254) :
    sbPush b a =
      { units := { a.units with sb := { buf := [], lastLen := 255 } },
        offers := a.offers ++ 0xFF :: (a.units.sb.buf ++ [b]) } := by
  have hlen : (a.units.sb.buf ++ [b]).length = 255 := by simp [h]
  have hfull : ¬(a.units.sb.buf ++ [b]).length < 255 := by omega
  rw [sbPush_eq b a (by omega), chunkRest, chunkOut, if_neg hfull, if_neg hfull,
    List.take_of_length_le hlen.le, List.drop_of_length_le hlen.le]

/-- SBClose of a buffer that is not empty is SBFlush (R102). -/
theorem sbClose_of_pos (a : Act) (h : 0 < a.units.sb.buf.length) : sbClose a = sbFlush a :=
  if_pos h

/-! ## Running a command -/

/-- The check of unit access, alone, passes when the host may use the units (R230). -/
theorem unitAccess_passes (u : Units) (h : UnitAccess u) : firstFailing [unitAccess u] = none := by
  simp [h]

/-- A command that offers no byte completes whatever the sink does, and writes unit registers only. -/
theorem exec_offers_nothing (i : Instr) (s : State) (u : Units) (h : Ready s)
    (hc : firstFailing (checksOf i s.units) = none) (hr : ran i s = { units := u, offers := [] }) :
    exec i s = .next { s with units := u } := by
  rw [exec_ran i s u [] h hc hr (sinkTakes_zero s), List.append_nil]
  rfl

/-- A command whose operation is SBFlush writes one chunk (R100), when its checks pass and the sink
takes the chunk. -/
theorem exec_of_ran_sbFlush (i : Instr) (s : State) (h : Ready s)
    (hc : firstFailing (checksOf i s.units) = none)
    (hr : ran i s = sbFlush { units := s.units, offers := [] })
    (hs : SinkTakes s (s.units.sb.buf.length + 1)) :
    exec i s = .next { s with
      units := { s.units with
        sb := { buf := [], lastLen := BitVec.ofNat 8 s.units.sb.buf.length } }
      out := s.out ++ lastChunk s.units.sb
      sink := s.sink.drop (s.units.sb.buf.length + 1) } :=
  exec_ran i s _ (lastChunk s.units.sb) h hc (hr.trans (sbFlush_eq _)) hs

/-! ## The commands -/

/-- Settles O18: with room the operation offers nothing; the 255th byte makes it offer the 256 bytes
of a full chunk. -/
theorem sbPushBuffersOrWritesFullChunk : Obligations.SbPushBuffersOrWritesFullChunk := by
  intro s b hready haccess
  have hc := unitAccess_passes s.units haccess
  refine ⟨fun hroom => ?_, fun hlast hsink => ?_⟩
  · exact exec_offers_nothing (.sbPush b) s _ hready hc (sbPush_of_room b _ hroom)
  · have hlen : ((0xFF : Byte) :: (s.units.sb.buf ++ [b])).length = 256 := by simp [hlast]
    have hexec := exec_ran (.sbPush b) s _ _ hready hc (sbPush_of_last b _ hlast)
      (by rwa [List.nil_append, hlen])
    rwa [List.nil_append, hlen] at hexec

/-- Settles O19: the operation of SB_FLUSH is SBFlush. -/
theorem sbFlushWritesOneChunk : Obligations.SbFlushWritesOneChunk := by
  intro s hready haccess _ hsink
  exact exec_of_ran_sbFlush .sbFlush s hready (unitAccess_passes _ haccess) rfl hsink

/-- Settles O20: the operation of SB_CLOSE is nothing on an empty buffer, and else SBFlush. -/
theorem sbCloseFlushesOnlyWhenNotEmpty : Obligations.SbCloseFlushesOnlyWhenNotEmpty := by
  intro s hready haccess
  have hc := unitAccess_passes s.units haccess
  refine ⟨fun hempty => ?_, fun hpos _ hsink => ?_⟩
  · exact exec_offers_nothing .sbClose s s.units hready hc (sbClose_empty _ hempty)
  · exact exec_of_ran_sbFlush .sbClose s hready hc (sbClose_of_pos _ hpos) hsink

end Sys2Proof.Machine
end

section
/-!
SUPPORT. The checks of the Bit Packer's commands, case by case; with them the statements of
41_bit_packer.md on BP_OPEN (R122), BP_INSERT (R120) and BP_FLUSH (R121). The effect of BPInsert and
BPFlush by arithmetic is `bpInsert_eq` and `bpFlush_eq`.
-/

namespace Sys2Proof.Machine

/-! ## The checks -/

/-- Without unit access CA_SEQUENCE is raised, whatever checks follow (R230). -/
theorem firstFailing_of_no_access (u : Units) (rest : List (Bool × Cause)) (h : ¬UnitAccess u) :
    firstFailing (unitAccess u :: rest) = some .caSequence := by
  rw [unitAccess_eq, decide_eq_true h]
  rfl

/-- With unit access the checks that follow decide (R230). -/
theorem firstFailing_of_access (u : Units) (rest : List (Bool × Cause)) (h : UnitAccess u) :
    firstFailing (unitAccess u :: rest) = firstFailing rest := by
  rw [unitAccess_eq, decide_eq_false (not_not_intro h)]
  rfl

/-- The check for a session that must not be open, alone (R122). -/
theorem firstFailing_bpNotOpen (u : Units) :
    firstFailing [bpNotOpen u] = if u.bp.state = .opened then some .bpState else none := by
  simp [bpNotOpen]

/-- With an open session the checks that follow decide (R123, R124). -/
theorem firstFailing_of_opened (u : Units) (rest : List (Bool × Cause))
    (h : u.bp.state = .opened) : firstFailing (bpIsOpen u :: rest) = firstFailing rest := by
  simp [bpIsOpen, h]

/-- A width from 1 to 16 is legal (R120). -/
theorem widthLegal_of_range (w : BitVec 5) (h1 : 1 ≤ w.toNat) (h2 : w.toNat ≤ 16) :
    widthLegal w = true := by
  simp [widthLegal, Config.bpWidthMin, Config.bpWidthMax, h1, h2]

/-- The checks of BP_INSERT pass with unit access, an open session and a legal width (R123). -/
theorem bpInsert_passes (u : Units) (width : BitVec 5) (value : Half) (haccess : UnitAccess u)
    (hopen : u.bp.state = .opened) (h1 : 1 ≤ width.toNat) (h2 : width.toNat ≤ 16) :
    firstFailing (checksOf (.bpInsert width value) u) = none := by
  rw [checksOf, firstFailing_of_access u _ haccess, firstFailing_of_opened u _ hopen,
    widthLegal_of_range width h1 h2]
  rfl

/-- The checks of BP_FLUSH pass with unit access and an open session (R124). -/
theorem bpFlush_passes (u : Units) (haccess : UnitAccess u) (hopen : u.bp.state = .opened) :
    firstFailing (checksOf .bpFlush u) = none := by
  rw [checksOf, firstFailing_of_access u _ haccess, firstFailing_of_opened u _ hopen,
    firstFailing_nil]

/-! ## The commands -/

/-- Settles O22: the operation writes the BP registers and offers nothing; the first check is unit
access, the second that no session is open. -/
theorem bpOpenStartsFreshSession : Obligations.BpOpenStartsFreshSession := by
  intro s hready
  have hchecks (haccess : UnitAccess s.units) : firstFailing (checksOf .bpOpen s.units) =
      if s.units.bp.state = .opened then some .bpState else none :=
    (firstFailing_of_access s.units _ haccess).trans (firstFailing_bpNotOpen s.units)
  refine ⟨fun haccess hclosed => ?_, fun haccess hopen => ?_, fun hno => ?_⟩
  · exact exec_offers_nothing .bpOpen s _ hready ((hchecks haccess).trans (if_neg hclosed)) rfl
  · exact exec_raises .bpOpen s .bpState hready ((hchecks haccess).trans (if_pos hopen))
  · exact exec_raises .bpOpen s .caSequence hready (firstFailing_of_no_access s.units _ hno)

/-- Settles O23: the checks pass, and the operation is BPInsert, which by arithmetic writes one
code. -/
theorem bpInsertAppendsTheLowBits : Obligations.BpInsertAppendsTheLowBits := by
  intro s width value hready haccess hopen h1 h2 ⟨hbits, hacc, _⟩ hsb codes hsink
  exact exec_ran (.bpInsert width value) s (codesRest s.units codes) (codesOut s.units codes) hready
    (bpInsert_passes s.units width value haccess hopen h1 h2)
    (bpInsert_eq width.toNat value _ h2 hbits hacc hsb) hsink

/-- Settles O24: the checks pass, and the operation is BPFlush, which by arithmetic pads the held bits
and always writes the last chunk. -/
theorem bpFlushPadsAndForwardsTheFlush : Obligations.BpFlushPadsAndForwardsTheFlush := by
  intro s hready haccess hopen ⟨hbits, hacc, _⟩ hsb hsink
  exact exec_ran .bpFlush s (flushRest s.units []) (flushOut s.units []) hready
    (bpFlush_passes s.units haccess hopen) (bpFlush_eq _ hbits hacc hsb) hsink

end Sys2Proof.Machine
end

section
/-!
SUPPORT. The checks of LZW_INIT and LZW_FLUSH, and the code that LZWFlush writes for the matched buffer;
with them the statements of 42_lzw_compressor.md on LZW_INIT (R142) and LZW_FLUSH (R146). The effect
of LZWInit and LZWFlush by arithmetic is `lzwInit_eq` and `lzwFlush_eq`.
-/

namespace Sys2Proof.Machine

/-! ## The checks -/

/-- Without a live session the checks that follow decide (R147). -/
theorem firstFailing_of_not_matching (u : Units) (rest : List (Bool × Cause))
    (h : u.lzw.state ≠ .matching) : firstFailing (lzwNotMatch u :: rest) = firstFailing rest := by
  simp [lzwNotMatch, h]

/-- With a live session the checks that follow decide (R148, R149). -/
theorem firstFailing_of_matching (u : Units) (rest : List (Bool × Cause))
    (h : u.lzw.state = .matching) : firstFailing (lzwIsMatch u :: rest) = firstFailing rest := by
  simp [lzwIsMatch, h]

/-- A minimum code size from 2 to 8 is legal (R140). -/
theorem codeSizeLegal_of_range (n : BitVec 4) (h1 : 2 ≤ n.toNat) (h2 : n.toNat ≤ 8) :
    codeSizeLegal n = true :=
  decide_eq_true ⟨h1, h2⟩

/-- The checks of LZW_INIT pass with unit access, no live LZW session, a legal code size and an open
BP session (R147). -/
theorem lzwInit_passes (u : Units) (n : BitVec 4) (haccess : UnitAccess u)
    (hidle : u.lzw.state ≠ .matching) (h1 : 2 ≤ n.toNat) (h2 : n.toNat ≤ 8)
    (hopen : u.bp.state = .opened) : firstFailing (checksOf (.lzwInit n) u) = none := by
  rw [checksOf, firstFailing_of_access u _ haccess, firstFailing_of_not_matching u _ hidle,
    codeSizeLegal_of_range n h1 h2]
  exact firstFailing_of_opened u [] hopen

/-- The checks of LZW_FLUSH pass with unit access, a live LZW session and an open BP session
(R149). -/
theorem lzwFlush_passes (u : Units) (haccess : UnitAccess u) (hlive : u.lzw.state = .matching)
    (hopen : u.bp.state = .opened) : firstFailing (checksOf .lzwFlush u) = none := by
  rw [checksOf, firstFailing_of_access u _ haccess, firstFailing_of_matching u _ hlive]
  exact firstFailing_of_opened u [] hopen

/-! ## The closing codes -/

/-- The code written for a key is the one the dictionary holds (R143). -/
theorem codeOf_of_lookup (d : Dict) (m : List Byte) (c : Code) (h : Dict.lookup d m = some c) :
    Dict.codeOf d m = c := by
  rw [Dict.codeOf, h, Option.getD_some]

/-- The closing codes look the matched buffer up only when it is not empty (R146), so any code may
stand for an empty one. -/
theorem closingCodes_codeOf (z : Lzw) (c : Code)
    (h : z.matched ≠ [] → Dict.lookup z.dict z.matched = some c) :
    closingCodes z (Dict.codeOf z.dict z.matched) = closingCodes z c := by
  by_cases hempty : z.matched = []
  · rw [closingCodes, closingCodes, if_pos hempty, if_pos hempty]
  · rw [codeOf_of_lookup z.dict z.matched c (h hempty)]

/-! ## The commands -/

/-- Settles O26: the checks pass, and the operation is LZWInit, which by arithmetic seeds the session
and writes the clear code. -/
theorem lzwInitSeedsAndWritesClearCode : Obligations.LzwInitSeedsAndWritesClearCode := by
  intro s n hready haccess hidle h1 h2 hopen ⟨hbits, hacc, _⟩ hsb codes hsink
  exact exec_ran (.lzwInit n) s _ (codesOut s.units codes) hready
    (lzwInit_passes s.units n haccess hidle h1 h2 hopen)
    (lzwInit_eq { units := s.units, offers := [] } hbits hacc hsb n h2) hsink

/-- Settles O30: the checks pass, and the operation is LZWFlush, which by arithmetic writes the
closing codes and flushes; the matched buffer's code is the one the dictionary holds. -/
theorem lzwFlushWritesTheClosingCodes : Obligations.LzwFlushWritesTheClosingCodes := by
  intro s c hready haccess hlive hopen ⟨hbits, hacc, _⟩ hsb hcode codes hsink
  have hflush := lzwFlush_eq { units := s.units, offers := [] } hbits hacc hsb
  rw [closingCodes_codeOf s.units.lzw c hcode] at hflush
  exact exec_ran .lzwFlush s _ (flushOut s.units codes) hready
    (lzwFlush_passes s.units haccess hlive hopen) hflush hsink

end Sys2Proof.Machine
end

section
/-!
SUPPORT. The checks of the Container Assembler's commands, what their operations come to, the bytes
of a 16-bit field and the depth of a palette by arithmetic; with them the statements of
44_container_assembler.md on GIF_BEGIN (R183 to R186), FRAME_BEGIN (R187 to R189), PAL (R190),
DATA_BEGIN (R192), FRAME_END (R194) and GIF_END (R196). The effect of FRAME_END by arithmetic is
`frameEnd_eq`.
-/

namespace Sys2Proof.Machine

/-! ## The checks -/

/-- In another state than the one needed CA_SEQUENCE is raised, whatever checks follow (R182). -/
theorem firstFailing_of_ca_ne (want : CaState) (u : Units) (rest : List (Bool × Cause))
    (h : u.ca.state ≠ want) : firstFailing (caIs want u :: rest) = some .caSequence := by
  simp [caIs, h]

/-- In the state needed the checks that follow decide (R182). -/
theorem firstFailing_of_ca_eq (want : CaState) (u : Units) (rest : List (Bool × Cause))
    (h : u.ca.state = want) : firstFailing (caIs want u :: rest) = firstFailing rest := by
  simp [caIs, h]

/-- With a size without zero the checks that follow decide (R183, R187). -/
theorem firstFailing_of_size (width height : Half) (rest : List (Bool × Cause))
    (hw : width ≠ 0) (hh : height ≠ 0) :
    firstFailing (sizeFits width height :: rest) = firstFailing rest := by
  rw [sizeFits, sizeLegal, decide_eq_true ⟨hw, hh⟩]
  rfl

/-- The checks of GIF_BEGIN pass with unit access, a size without zero, no live session and an empty
SB (R183). -/
theorem gifBegin_passes (u : Units) (width height : Half) (anim : Bool) (haccess : UnitAccess u)
    (hw : width ≠ 0) (hh : height ≠ 0) (hlzw : u.lzw.state ≠ .matching)
    (hbp : u.bp.state ≠ .opened) (hsb : u.sb.buf = []) :
    firstFailing (checksOf (.gifBegin width height anim) u) = none := by
  rw [checksOf, firstFailing_of_access u _ haccess, firstFailing_of_size width height _ hw hh,
    firstFailing_of_not_matching u _ hlzw]
  simp [bpNotOpen, sbIsEmpty, hbp, hsb]

/-- The checks of FRAME_BEGIN pass in STREAM with a size without zero (R187). -/
theorem frameBegin_passes (u : Units) (width height delay : Half) (ncolors : BitVec 9)
    (hca : u.ca.state = .stream) (hw : width ≠ 0) (hh : height ≠ 0) :
    firstFailing (checksOf (.frameBegin width height delay ncolors) u) = none := by
  rw [checksOf, firstFailing_of_ca_eq _ u _ hca, firstFailing_of_size width height _ hw hh,
    firstFailing_nil]

/-- The check of the state needed, alone, passes in that state (R182). -/
theorem caIs_passes (want : CaState) (u : Units) (h : u.ca.state = want) :
    firstFailing [caIs want u] = none :=
  firstFailing_of_ca_eq want u [] h

/-! ## Fields and depths by arithmetic -/

/-- A 16-bit field is its remainder by 256, then its quotient (R61). -/
theorem bytes16_eq (v : Half) :
    bytes16 v = [BitVec.ofNat 8 (v.toNat % 256), BitVec.ofNat 8 (v.toNat / 256)] := by
  have hlo : v.extractLsb' 0 8 = BitVec.ofNat 8 (v.toNat % 256) := BitVec.eq_of_toNat_eq (by simp)
  have hhi : v.extractLsb' 8 8 = BitVec.ofNat 8 (v.toNat / 256) :=
    BitVec.eq_of_toNat_eq (by simp [Nat.shiftRight_eq_div_pow])
  rw [bytes16, hlo, hhi]

/-- `ceilLog2 n` is the least exponent of a power of two that reaches `n` (R7). -/
theorem ceilLog2_le_iff (n d : Nat) : ceilLog2 n ≤ d ↔ n ≤ 2 ^ d := by
  unfold ceilLog2
  cases hfind : (List.range n).find? (fun d => decide (n ≤ 2 ^ d)) with
  | none =>
    -- for a positive `n` the exponent `n - 1` is in the range and reaches `n`
    have hzero : n = 0 := by
      by_contra hpos
      have hlast := List.find?_eq_none.mp hfind (n - 1) (List.mem_range.mpr (by omega))
      have hreach : n - 1 < 2 ^ (n - 1) := Nat.lt_two_pow_self
      exact hlast (decide_eq_true (by omega))
    simp [hzero]
  | some i =>
    obtain ⟨hreach, _, hleast⟩ := List.find?_range_eq_some.mp hfind
    rw [Option.getD_some]
    refine ⟨fun hle => ?_, fun hn => ?_⟩
    · exact (of_decide_eq_true hreach).trans (Nat.pow_le_pow_right (by omega) hle)
    · by_contra hlt
      simpa [hn] using hleast d (by omega)

/-- The depth of a palette is the least `d ≥ 1` with `2^d ≥ n` (R181). -/
theorem depthOf_le_iff (n d : Nat) : depthOf n ≤ d ↔ 1 ≤ d ∧ n ≤ 2 ^ d := by
  rw [depthOf, max_le_iff, ceilLog2_le_iff]

theorem depthOf_eq_of_least (n d : Nat) (h1 : 1 ≤ d) (hn : n ≤ 2 ^ d)
    (hleast : d = 1 ∨ 2 ^ (d - 1) < n) : depthOf n = d := by
  have hle : depthOf n ≤ d := (depthOf_le_iff n d).mpr ⟨h1, hn⟩
  have hpos : 1 ≤ depthOf n := le_max_left _ _
  obtain hone | hlt := hleast
  · omega
  · have hnot : ¬depthOf n ≤ d - 1 := fun h => hlt.not_ge ((depthOf_le_iff n _).mp h).2
    omega

/-- A palette has at most 256 entries, so its depth is at most 8 (R6, R181). -/
theorem depth_le_eight (n d : Nat) (hn : n ≤ 256) (hleast : d = 1 ∨ 2 ^ (d - 1) < n) : d ≤ 8 := by
  obtain hone | hlt := hleast
  · omega
  · have hpow : 2 ^ (d - 1) < 2 ^ 8 := by omega
    have hexp := (Nat.pow_lt_pow_iff_right (by omega)).mp hpow
    omega

/-- The last byte of the image descriptor is `0x80` plus the depth less one (R189). -/
theorem tableFlags_eq (d : Nat) (h1 : 1 ≤ d) (h8 : d ≤ 8) :
    (0x80 : Byte) ||| (BitVec.ofNat 4 d - 1).setWidth 8 = BitVec.ofNat 8 (0x80 + (d - 1)) := by
  interval_cases d <;> rfl

/-- The minimum code size fits its four bits (R181). -/
theorem minCodeSize_toNat (depth : BitVec 4) : (minCodeSize depth).toNat = max 2 depth.toNat := by
  have hlt := depth.isLt
  rw [minCodeSize, BitVec.toNat_ofNat]
  omega

/-- The minimum code size as the byte DATA_BEGIN writes (R192). -/
theorem minCodeSize_byte (depth : BitVec 4) :
    (minCodeSize depth).setWidth 8 = BitVec.ofNat 8 (max 2 depth.toNat) := by
  rw [← minCodeSize_toNat, BitVec.ofNat_toNat]

/-! ## The operations -/

/-- The bytes of GIF_BEGIN (R184, R185, R186). -/
def streamHeader (width height : Half) (anim : Bool) (loopCount : Half) : List Byte :=
  signatureBytes ++ screenDescriptorBytes width height ++
    (if anim then loopExtensionBytes loopCount else [])

/-- GIF_BEGIN writes the stream header and moves to STREAM (R183). -/
theorem gifBegin_eq (width height : Half) (anim : Bool) (loopCount : Half) (a : Act) :
    gifBegin width height anim loopCount a =
      { units := { a.units with ca := { a.units.ca with state := .stream } },
        offers := a.offers ++ streamHeader width height anim loopCount } := by
  cases anim <;> simp [gifBegin, streamHeader, Act.emitAll, Act.setCa]

/-- FRAME_BEGIN writes the two blocks of the frame header and the frame's registers (R187). -/
theorem frameBegin_eq (width height delay : Half) (ncolors : BitVec 9) (a : Act) (d : Nat)
    (hd : depthOf ncolors.toNat = d) :
    frameBegin width height delay ncolors a =
      { units := { a.units with
          ca := { state := .palette, ncolors := ncolors, depth := BitVec.ofNat 4 d,
                  palcount := 0 } },
        offers := a.offers ++
          (gceBytes delay ++ imageDescriptorBytes width height (BitVec.ofNat 4 d)) } := by
  rw [frameBegin, hd, ← List.append_assoc]
  rfl

/-- A 9-bit count after one more entry. -/
theorem succ_eq_ofNat (count : BitVec 9) : count + 1 = BitVec.ofNat 9 (count.toNat + 1) :=
  BitVec.eq_of_toNat_eq (by simp)

/-- PAL of an entry that is not the last writes and counts it (R190). -/
theorem palEntry_of_more (r g b : Byte) (a : Act)
    (h : a.units.ca.palcount.toNat + 1 < a.units.ca.ncolors.toNat) :
    palEntry r g b a =
      { units := { a.units with ca := { a.units.ca with
          palcount := BitVec.ofNat 9 (a.units.ca.palcount.toNat + 1) } },
        offers := a.offers ++ [r, g, b] } := by
  have hmore : BitVec.ofNat 9 (a.units.ca.palcount.toNat + 1) ≠ a.units.ca.ncolors := by
    intro heq
    have hlt := a.units.ca.ncolors.isLt
    have := congrArg BitVec.toNat heq
    rw [BitVec.toNat_ofNat] at this
    omega
  rw [palEntry, succ_eq_ofNat, if_neg hmore]
  rfl

/-- PAL of the last entry writes it and its padding copies, and moves to LCT_DONE (R190). -/
theorem palEntry_of_last (r g b : Byte) (a : Act)
    (h : a.units.ca.palcount.toNat + 1 = a.units.ca.ncolors.toNat) :
    palEntry r g b a =
      { units := { a.units with ca := { a.units.ca with
          palcount := a.units.ca.ncolors, state := .lctDone } },
        offers := a.offers ++ (List.replicate
          (1 + (2 ^ a.units.ca.depth.toNat - a.units.ca.ncolors.toNat)) [r, g, b]).flatten } := by
  have hlast : a.units.ca.palcount + 1 = a.units.ca.ncolors := by
    rw [succ_eq_ofNat, h, BitVec.ofNat_toNat, BitVec.setWidth_eq]
  rw [palEntry, hlast, if_pos rfl, Nat.add_comm 1, List.replicate_succ, List.flatten_cons,
    ← List.append_assoc]
  rfl

/-- DATA_BEGIN by arithmetic: the minimum code size, then a fresh BP session that holds the clear
code of a fresh LZW session (R192). -/
theorem dataBegin_eq (a : Act) (hs : a.units.sb.Ok) (hd : a.units.ca.depth.toNat ≤ 8) :
    let n := max 2 a.units.ca.depth.toNat
    let opened := { a.units with bp := { acc := 0, nbits := 0, state := BpState.opened } }
    let codes := [(n + 1, 2 ^ n)]
    dataBegin a =
      { units := { codesRest opened codes with
          lzw := { state := .matching, s := BitVec.ofNat 4 n, width := BitVec.ofNat 4 (n + 1)
                   next := BitVec.ofNat 13 (2 ^ n + 2)
                   dict := (List.range (2 ^ n)).map
                     (fun k => ([BitVec.ofNat 8 k], BitVec.ofNat 12 k))
                   matched := [] }
          ca := { a.units.ca with state := .pixels } },
        offers := a.offers ++ (BitVec.ofNat 8 n :: codesOut opened codes) } := by
  intro n opened codes
  have hn : (minCodeSize a.units.ca.depth).toNat = n := minCodeSize_toNat _
  have hinit := lzwInit_eq (bpOpen (a.emit ((minCodeSize a.units.ca.depth).setWidth 8)))
    (by simp) (by simp) hs (minCodeSize a.units.ca.depth) (by omega)
  simp only [firstWidth, firstCode, Dict.seed, hn, minCodeSize_byte] at hinit
  rw [dataBegin, minCodeSize_byte, hinit]
  simp only [bpOpen_offers, emit_offers, List.append_assoc, List.singleton_append]
  rfl

/-! ## The commands -/

/-- Settles O33: the checks pass, and the operation writes the stream header, whose 16-bit fields
are their low bytes and then their high bytes. -/
theorem gifBeginWritesTheStreamHeader : Obligations.GifBeginWritesTheStreamHeader := by
  intro s width height anim hready haccess hw hh hlzw hbp hsb lo hi bytes hsink
  have hbytes : streamHeader width height anim s.loopCount = bytes := by
    simp only [streamHeader, signatureBytes, screenDescriptorBytes, loopExtensionBytes, bytes16_eq]
    rfl
  have hran := gifBegin_eq width height anim s.loopCount { units := s.units, offers := [] }
  rw [hbytes] at hran
  exact exec_ran (.gifBegin width height anim) s _ bytes hready
    (gifBegin_passes s.units width height anim haccess hw hh hlzw hbp hsb) hran hsink

/-- Settles O34: the checks pass, the depth of the palette is `d`, and the operation writes the two
blocks of the frame header. -/
theorem frameBeginWritesTheFrameHeader : Obligations.FrameBeginWritesTheFrameHeader := by
  intro s width height delay ncolors d hready hca hw hh _ h256 h1 hd hleast lo hi bytes hsink
  have h8 := depth_le_eight ncolors.toNat d h256 hleast
  have hbytes : gceBytes delay ++ imageDescriptorBytes width height (BitVec.ofNat 4 d) = bytes := by
    simp only [gceBytes, imageDescriptorBytes, bytes16_eq, tableFlags_eq d h1 h8]
    rfl
  have hran := frameBegin_eq width height delay ncolors { units := s.units, offers := [] } d
    (depthOf_eq_of_least ncolors.toNat d h1 hd hleast)
  rw [hbytes] at hran
  exact exec_ran (.frameBegin width height delay ncolors) s _ bytes hready
    (frameBegin_passes s.units width height delay ncolors hca hw hh) hran hsink

/-- Settles O35: outside PALETTE the check raises; else the operation writes the entry, and with the
last one the copies that pad the table. -/
theorem palWritesTheEntryAndPadsTheTable : Obligations.PalWritesTheEntryAndPadsTheTable := by
  intro s r g b hready
  refine ⟨fun hno => ?_, fun hca hmore hsink => ?_, ?_⟩
  · exact exec_raises (.pal r g b) s .caSequence hready (firstFailing_of_ca_ne _ s.units _ hno)
  · exact exec_ran (.pal r g b) s _ [r, g, b] hready (caIs_passes _ s.units hca)
      (palEntry_of_more r g b _ hmore) hsink
  · intro hca hlast copies hsink
    have hlen : (List.replicate copies [r, g, b]).flatten.length = 3 * copies := by
      simp [Nat.mul_comm]
    have hexec := exec_ran (.pal r g b) s _ (List.replicate copies [r, g, b]).flatten hready
      (caIs_passes _ s.units hca) (palEntry_of_last r g b _ hlast) (by rwa [hlen])
    rwa [hlen] at hexec

/-- Settles O36: outside LCT_DONE the check raises; else the operation writes the minimum code size
and, by arithmetic, the clear code of the fresh sessions. -/
theorem dataBeginOpensTheImageData : Obligations.DataBeginOpensTheImageData := by
  intro s hready
  refine ⟨fun hno => ?_, ?_⟩
  · exact exec_raises .dataBegin s .caSequence hready (firstFailing_of_ca_ne _ s.units _ hno)
  · intro hca hsb hdepth n opened codes hsink
    have hlen : (BitVec.ofNat 8 n :: codesOut opened codes).length =
        1 + (codesOut opened codes).length := by
      rw [List.length_cons, Nat.add_comm]
    have hexec := exec_ran .dataBegin s _ (BitVec.ofNat 8 n :: codesOut opened codes) hready
      (caIs_passes _ s.units hca) (dataBegin_eq _ hsb hdepth) (by rwa [hlen])
    rwa [hlen] at hexec

/-- Settles O37: outside PIXELS the check raises; else the operation, by arithmetic, writes the
closing codes, flushes and terminates; the matched buffer's code is the one the dictionary holds. -/
theorem frameEndClosesTheImageData : Obligations.FrameEndClosesTheImageData := by
  intro s c hready
  refine ⟨fun hno => ?_, ?_⟩
  · exact exec_raises .frameEnd s .caSequence hready (firstFailing_of_ca_ne _ s.units _ hno)
  · intro hca ⟨hbits, hacc, _⟩ hsb hcode codes bytes hsink
    have hend := frameEnd_eq { units := s.units, offers := [] } hbits hacc hsb
    rw [closingCodes_codeOf s.units.lzw c hcode] at hend
    exact exec_ran .frameEnd s _ bytes hready (caIs_passes _ s.units hca) hend hsink

/-- Settles O38: outside STREAM the check raises; else the operation offers the trailer. -/
theorem gifEndWritesTheTrailer : Obligations.GifEndWritesTheTrailer := by
  intro s hready
  refine ⟨fun hno => ?_, fun hca hsink => ?_⟩
  · exact exec_raises .gifEnd s .caSequence hready (firstFailing_of_ca_ne _ s.units _ hno)
  · exact exec_ran .gifEnd s _ [0x3B] hready (caIs_passes _ s.units hca) rfl hsink

end Sys2Proof.Machine
end

section
/-!
SUPPORT. The least cause of the checks that fail, what a step does in the faulted state, and the end
of a command whose sink fails; with them the statements of 60_exceptions.md on the priority of the
checks (R222, R223), the faulted state (R225, R226) and SINK_ERROR (R227).
-/

namespace Sys2Proof.Machine

/-! ## The lowest failing cause -/

/-- If `c` is the least cause whose check fails, the first check that fails has cause `c` (R223). -/
theorem firstFailing_of_least (i : Instr) (u : Units) (c : Nat) (hc : Violates i u c)
    (hleast : ∀ c', Violates i u c' → c ≤ c') :
    ∃ cause, firstFailing (checksOf i u) = some cause ∧ cause.code.toNat = c := by
  cases hfirst : firstFailing (checksOf i u) with
  | none => exact absurd hc ((firstFailing_none i u).mp hfirst c)
  | some cause =>
    obtain ⟨hviolates, hlow⟩ := firstFailing_some i u cause hfirst
    exact ⟨cause, rfl, Nat.le_antisymm (hlow c hc) (hleast _ hviolates)⟩

/-- Settles O11: the checks are made in the order of their causes, so the first that fails has the
least cause, and the command raises it. -/
theorem lowestFailingCauseIsRaised : Obligations.LowestFailingCauseIsRaised := by
  intro s i c hready hc hleast
  obtain ⟨cause, hfirst, rfl⟩ := firstFailing_of_least i s.units c hc hleast
  obtain ⟨hop, _⟩ := Laws.EncodedOpcode.of_append i
  rw [exec_raises i s cause hready hfirst, ← opcodeOf_eq_ofNat, hop,
    BitVec.ofNat_toNat, BitVec.setWidth_eq]
  rfl

/-! ## The faulted state -/

/-- In the faulted state a word, legal or not, is discarded (R225). -/
theorem present_faulted (w : CmdWord) (s : State) (ho : s.offered = none)
    (hf : s.faultRegs.flt = true) : present w s = .next s := by
  obtain ⟨i, _, hp⟩ | ⟨_, hp⟩ := present_cases w s
  · exact hp.trans (exec_faulted i s ho hf)
  · exact hp.trans (whenReady_faulted s _ ho hf)

/-- Between commands the command port is ready (R37). -/
theorem cmdReady_of_offered_none (s : State) (h : s.offered = none) : cmdReady s = true := by
  rw [cmdReady, h]
  rfl

/-- A word is taken only between commands (R261). -/
theorem present_next_offered (w : CmdWord) (s t : State) (h : present w s = .next t) :
    s.offered = none := by
  obtain ⟨i, _, hp⟩ | ⟨_, hp⟩ := present_cases w s
  · exact (exec_next i s t (hp.symm.trans h)).1
  · exact (whenReady_next s t _ (hp.symm.trans h)).1

/-- In the faulted state a step waits, resets, or takes the next word and discards it. -/
theorem step_next_of_faulted (s t : State) (hf : s.faultRegs.flt = true) (h : step s = .next t) :
    (s.host = [] ∧ t = s) ∨
    (∃ events, s.host = .reset :: events ∧ t = hardReset { s with host := events }) ∨
    (∃ w events, s.host = .command w :: events ∧ t = { s with host := events }) := by
  obtain hwait | hreset | ⟨w, events, hhost, hp⟩ := step_next s t h
  · exact .inl hwait
  · exact .inr (.inl hreset)
  · have ho := present_next_offered w { s with host := events } t hp
    have hsame := hp.symm.trans (present_faulted w { s with host := events } ho hf)
    exact .inr (.inr ⟨w, events, hhost, Host.Outcome.next.inj hsame⟩)

/-- Settles O12: the step presents the word, which is discarded, and no byte is offered before or
after. -/
theorem faultedStateDiscardsEveryWord : Obligations.FaultedStateDiscardsEveryWord := by
  intro s w events ho hf hhost
  rw [step_of_command s w events hhost]
  exact ⟨present_faulted w { s with host := events } ho hf, cmdReady_of_offered_none _ ho⟩

/-- Settles O13: of the three steps possible in the faulted state only reset clears `flt`; the other
two change no register. -/
theorem onlyResetLeavesTheFaultedState : Obligations.OnlyResetLeavesTheFaultedState := by
  intro s t hf h
  obtain ⟨hhost, rfl⟩ | ⟨events, hhost, rfl⟩ | ⟨w, events, hhost, rfl⟩ :=
    step_next_of_faulted s t hf h
  · simp [hf, hhost]
  · simp [hhost, FaultRegs.reset, State.reset]
  · simp [hf, hhost]

/-! ## The sink fails -/

/-- The operation of a command, and so what it offers, does not depend on the sink's answers. -/
theorem ran_with_sink (i : Instr) (s : State) (plan : List SinkAnswer) :
    ran i { s with sink := plan } = ran i s := rfl

/-- When the sink fails on byte number `k` of a command, it has taken the bytes before it, the command
raises SINK_ERROR, and the unit registers are unspecified (R227). -/
theorem settle_fails (op : BitVec 8) (a : Act) (s : State) (k : Nat) (left : List SinkAnswer)
    (hk : k < a.offers.length) :
    settle op a { s with sink := List.replicate k .accept ++ .fail :: left } =
      raise .sinkError op
        (forgetUnits { s with out := s.out ++ a.offers.take k, sink := left }) := by
  have hd := deliver_stops a.offers k .fail left hk (by decide)
  rw [if_pos rfl] at hd
  simp only [settle, hd]

/-- With every check passed and the sink that accepts to the end, the bytes a command adds to `out`
are those its operation offers. -/
theorem ran_offers_of_exec (i : Instr) (s t : State) (bytes : List Byte) (hready : Ready s)
    (hc : firstFailing (checksOf i s.units) = none) (ht : exec i { s with sink := [] } = .next t)
    (hout : t.out = s.out ++ bytes) : (ran i s).offers = bytes := by
  have haccept : SinkTakes { s with sink := [] } (ran i s).offers.length := by simp [SinkTakes]
  rw [exec_passes i { s with sink := [] } hready hc haccept] at ht
  cases ht
  exact List.append_cancel_left hout

/-- Settles O14: the bytes offered do not depend on the sink, so they are those written to the sink
that accepts, and the command ends at the byte on which the sink fails. -/
theorem sinkFailureRaisesSinkError : Obligations.SinkFailureRaisesSinkError := by
  intro s t i bytes k left hready hpass ht hout hk
  have hc := (firstFailing_none i s.units).mpr hpass
  obtain rfl := ran_offers_of_exec i s t bytes hready hc ht hout
  have hexec :=
    exec_settles i { s with sink := List.replicate k .accept ++ .fail :: left } hready hc
  rw [ran_with_sink, settle_fails i.opcode _ s k left hk] at hexec
  exact ⟨_, hexec, rfl, rfl, hready.1, rfl, rfl, rfl⟩

end Sys2Proof.Machine
end

section
/-!
SUPPORT. A command word as a number: the encoder's word as its opcode and its operands at their
weights, a decoded word's fields by division and remainder, and the rows of the opcode table against
the decoder; with them the statements of 30_encoding.md on the encoder and the decoder.
-/

namespace Sys2Proof.Machine

/-! ## Words as numbers -/

/-- A field is a quotient and a remainder of the word (R7). -/
theorem field_toNat (w : CmdWord) (lo n : Nat) :
    (CmdWord.field w lo n).toNat = w.toNat / 2 ^ lo % 2 ^ n := by
  rw [CmdWord.field, BitVec.extractLsb'_toNat, Nat.shiftRight_eq_div_pow]

/-- A field reads `x` when the word's number says so. -/
theorem field_eq_of_toNat {w : CmdWord} {lo n : Nat} {x : BitVec n}
    (h : w.toNat / 2 ^ lo % 2 ^ n = x.toNat) : CmdWord.field w lo n = x :=
  BitVec.eq_of_toNat_eq ((field_toNat w lo n).trans h)

theorem field_zero_toNat (w : CmdWord) (n : Nat) :
    (CmdWord.field w 0 n).toNat = w.toNat % 2 ^ n := by
  rw [field_toNat, Nat.pow_zero, Nat.div_one]

theorem opcodeOf_toNat (w : CmdWord) : (opcodeOf w).toNat = w.toNat / 2 ^ 56 := by
  have hlt := w.isLt
  rw [opcodeOf, field_toNat]
  omega

/-- The operands of a command as one number, each at the weight of its lowest bit (R81, R82). -/
def operandNumber : Instr → Nat
  | .sbPush b | .lzwEncode b | .pixel b => b.toNat
  | .bpInsert width value => width.toNat * 2 ^ 16 + value.toNat
  | .lzwInit n => n.toNat
  | .gifBegin width height anim => anim.toNat * 2 ^ 32 + height.toNat * 2 ^ 16 + width.toNat
  | .frameBegin width height delay ncolors =>
      (ncolors.toNat - 1) * 2 ^ 48 + delay.toNat * 2 ^ 32 + height.toNat * 2 ^ 16 + width.toNat
  | .pal r g b => b.toNat * 2 ^ 16 + g.toNat * 2 ^ 8 + r.toNat
  | .sbFlush | .sbClose | .bpOpen | .bpFlush | .lzwFlush | .dataBegin | .frameEnd | .gifEnd => 0

/-- A well-formed palette size less one fits its eight bits (R82). -/
theorem ncolors_range {width height delay : Half} {ncolors : BitVec 9}
    (h : (Instr.frameBegin width height delay ncolors).wellFormed = true) :
    1 ≤ ncolors.toNat ∧ ncolors.toNat ≤ 256 :=
  of_decide_eq_true h

theorem operandBits_toNat (i : Instr) (h : i.wellFormed = true) :
    i.operandBits.toNat = operandNumber i := by
  cases i
  case sbFlush | sbClose | bpOpen | bpFlush | lzwFlush | dataBegin | frameEnd | gifEnd => rfl
  case frameBegin width height delay ncolors =>
    obtain ⟨h1, h256⟩ := ncolors_range h
    simp only [Instr.operandBits, operandNumber, BitVec.toNat_cast, toNat_append_eq_add,
      BitVec.toNat_ofNat]
    omega
  all_goals
    simp only [Instr.operandBits, operandNumber, BitVec.toNat_cast, toNat_append_eq_add,
      BitVec.toNat_ofNat, BitVec.toNat_ofBool]
    omega

/-- The word of a command: its opcode byte above its operands (R80). -/
theorem encode_toNat (i : Instr) (h : i.wellFormed = true) :
    (encode i).toNat = i.opcode.toNat * 2 ^ 56 + operandNumber i := by
  rw [encode, BitVec.toNat_cast, toNat_append_eq_add, operandBits_toNat i h]

/-! ## The formats on words as numbers -/

/-- The operand bits of a command's word are its operands. -/
theorem encode_mod (i : Instr) (h : i.wellFormed = true) :
    (encode i).toNat % 2 ^ 56 = operandNumber i := by
  have hlt := i.operandBits.isLt
  rw [operandBits_toNat i h] at hlt
  rw [encode_toNat i h]
  omega

theorem formatZ_of_number (w : CmdWord) (i : Instr) (h : w.toNat % 2 ^ 56 = 0) :
    formatZ w i = some i :=
  if_pos (field_eq_of_toNat (by simp; omega))

theorem formatB_of_number (w : CmdWord) (mk : Byte → Instr) (b : Byte)
    (h : w.toNat % 2 ^ 56 = b.toNat) : formatB w mk = some (mk b) := by
  have hb := b.isLt
  rw [formatB, if_pos (field_eq_of_toNat (by simp; omega)), field_eq_of_toNat (x := b) (by omega)]

theorem formatI_of_number (w : CmdWord) (width : BitVec 5) (value : Half)
    (h : w.toNat % 2 ^ 56 = width.toNat * 2 ^ 16 + value.toNat) :
    formatI w = some (.bpInsert width value) := by
  have hw := width.isLt
  have hv := value.isLt
  rw [formatI, if_pos (field_eq_of_toNat (by simp; omega)),
    field_eq_of_toNat (x := width) (by omega), field_eq_of_toNat (x := value) (by omega)]

theorem formatS_of_number (w : CmdWord) (n : BitVec 4) (h : w.toNat % 2 ^ 56 = n.toNat) :
    formatS w = some (.lzwInit n) := by
  have hn := n.isLt
  rw [formatS, if_pos (field_eq_of_toNat (by simp; omega)), field_eq_of_toNat (x := n) (by omega)]

theorem formatG_of_number (w : CmdWord) (width height : Half) (anim : Bool)
    (h : w.toNat % 2 ^ 56 = anim.toNat * 2 ^ 32 + height.toNat * 2 ^ 16 + width.toNat) :
    formatG w = some (.gifBegin width height anim) := by
  have hw := width.isLt
  have hh := height.isLt
  have ha := anim.toNat_lt
  rw [formatG, if_pos (field_eq_of_toNat (by simp; omega)),
    field_eq_of_toNat (x := width) (by omega), field_eq_of_toNat (x := height) (by omega),
    field_eq_of_toNat (x := BitVec.ofBool anim) (by rw [BitVec.toNat_ofBool]; omega)]
  cases anim <;> rfl

theorem formatF_of_number (w : CmdWord) (width height delay : Half) (ncolors : BitVec 9)
    (h1 : 1 ≤ ncolors.toNat) (h256 : ncolors.toNat ≤ 256)
    (h : w.toNat % 2 ^ 56 = (ncolors.toNat - 1) * 2 ^ 48 + delay.toNat * 2 ^ 32 +
      height.toNat * 2 ^ 16 + width.toNat) :
    formatF w = some (.frameBegin width height delay ncolors) := by
  have hw := width.isLt
  have hh := height.isLt
  have hd := delay.isLt
  have hn : BitVec.ofNat 9 ((CmdWord.field w 48 8).toNat + 1) = ncolors := by
    apply BitVec.eq_of_toNat_eq
    rw [BitVec.toNat_ofNat, field_toNat]
    omega
  rw [formatF, hn, field_eq_of_toNat (x := width) (by omega),
    field_eq_of_toNat (x := height) (by omega), field_eq_of_toNat (x := delay) (by omega)]

theorem formatP_of_number (w : CmdWord) (r g b : Byte)
    (h : w.toNat % 2 ^ 56 = b.toNat * 2 ^ 16 + g.toNat * 2 ^ 8 + r.toNat) :
    formatP w = some (.pal r g b) := by
  have hr := r.isLt
  have hg := g.isLt
  have hb := b.isLt
  rw [formatP, if_pos (field_eq_of_toNat (by simp; omega)), field_eq_of_toNat (x := r) (by omega),
    field_eq_of_toNat (x := g) (by omega), field_eq_of_toNat (x := b) (by omega)]

/-! ## Decoding a word that was encoded -/

/-- Settles O4: the opcode byte leads the decoder to the command's format, which reads the operands
off the number they make. -/
theorem decodeOfEncodeIsIdentity : Obligations.DecodeOfEncodeIsIdentity := by
  intro i hi
  have hnum := encode_mod i hi
  unfold decode
  rw [show opcodeOf (encode i) = i.opcode from (Laws.EncodedOpcode.of_append i).1]
  cases i
  case sbPush b | lzwEncode b | pixel b => exact formatB_of_number _ _ b hnum
  case bpInsert width value => exact formatI_of_number _ width value hnum
  case lzwInit n => exact formatS_of_number _ n hnum
  case gifBegin width height anim => exact formatG_of_number _ width height anim hnum
  case frameBegin width height delay ncolors =>
    obtain ⟨h1, h256⟩ := ncolors_range hi
    exact formatF_of_number _ width height delay ncolors h1 h256 hnum
  case pal r g b => exact formatP_of_number _ r g b hnum
  all_goals exact formatZ_of_number _ _ hnum

/-! ## A word that decodes -/

/-- The one-bit field of GIF_BEGIN as a Boolean (R81). -/
theorem flag_toNat (w : CmdWord) (lo : Nat) :
    (CmdWord.field w lo 1 == 1).toNat = w.toNat / 2 ^ lo % 2 := by
  have hbit : ∀ b : BitVec 1, (b == 1).toNat = b.toNat := by decide
  rw [hbit, field_toNat, Nat.pow_one]

/-- Settles O2: the opcode is the word's top byte, and each format takes its fields as they stand. -/
theorem operandsAreTheirFields : Obligations.OperandsAreTheirFields := by
  intro w i h
  obtain ⟨hop, _⟩ := decode_hasFormOf w i h
  refine ⟨by rw [← hop, opcodeOf_toNat], ?_⟩
  unfold decode at h
  split at h
  -- FRAME_BEGIN, whose number of colours is not a field but one more than a field
  case h_11 =>
    obtain rfl := Option.some.inj h
    refine ⟨field_zero_toNat w 16, field_toNat w 16 16, field_toNat w 32 16, ?_⟩
    rw [BitVec.toNat_ofNat, field_toNat]
    omega
  -- an unknown opcode
  case h_17 => cases h
  all_goals
    simp only [formatZ, formatB, formatI, formatS, formatG, formatP, Option.ite_none_right_eq_some,
      Option.some.injEq] at h
    obtain ⟨_, rfl⟩ := h
    simp only [field_toNat, flag_toNat, Nat.pow_zero, Nat.div_one, and_self]

/-- The decoder gives well-formed commands only: `ncm1 + 1` is from 1 to 256 (R82). -/
theorem decode_wellFormed (w : CmdWord) (i : Instr) (h : decode w = some i) :
    i.wellFormed = true := by
  cases i
  case frameBegin width height delay ncolors =>
    obtain ⟨_, _, _, _, hn⟩ := operandsAreTheirFields w _ h
    refine decide_eq_true ⟨?_, ?_⟩
    · omega
    · show ncolors.toNat ≤ 256
      omega
  all_goals rfl

/-- The operands of the command read make up the operand bits of the word: its reserved bits are 0. -/
theorem decode_operandNumber (w : CmdWord) (i : Instr) (h : decode w = some i) :
    w.toNat % 2 ^ 56 = operandNumber i := by
  have hres := congrArg BitVec.toNat (decode_hasFormOf w i h).2
  rw [field_toNat] at hres
  obtain ⟨_, hfields⟩ := operandsAreTheirFields w i h
  cases i <;> simp [operandNumber, operandWidth] at hres hfields ⊢ <;> omega

/-- Settles O5: opcode and operands of the command read make the word's number. -/
theorem decodedWordIsItsEncoding : Obligations.DecodedWordIsItsEncoding := by
  intro w i h
  obtain ⟨hop, _⟩ := decode_hasFormOf w i h
  have hwf := decode_wellFormed w i h
  refine ⟨hwf, BitVec.eq_of_toNat_eq ?_⟩
  rw [encode_toNat i hwf, ← hop, ← decode_operandNumber w i h, opcodeOf_toNat]
  omega

/-! ## The table -/

/-- A command for each row of the opcode table. -/
def rowCommands : List Instr :=
  [.sbPush 0, .sbFlush, .sbClose, .bpOpen, .bpInsert 0 0, .bpFlush, .lzwInit 0, .lzwEncode 0,
   .lzwFlush, .gifBegin 0 0 false, .frameBegin 0 0 0 0, .pal 0 0 0, .dataBegin, .pixel 0, .frameEnd,
   .gifEnd]

theorem opcodeRows_eq : opcodeRows = rowCommands.map rowOf := by decide

/-- Each row of the opcode table is the row of a command. -/
theorem exists_rowOf (r : OpcodeRow) (h : r ∈ opcodeRows) : ∃ i, rowOf i = r := by
  rw [opcodeRows_eq] at h
  obtain ⟨i, _, hi⟩ := List.mem_map.mp h
  exact ⟨i, hi⟩

/-- Two rows with one opcode are one row. -/
theorem row_eq_of_opcode_eq :
    ∀ r ∈ opcodeRows, ∀ r' ∈ opcodeRows, r.opcode = r'.opcode → r = r' := by
  decide

/-- A bit of a word that a command's row selects, from the lowest reserved bit up: that of the opcode
byte above zeros. -/
theorem getLsbD_of_selects {w : CmdWord} {i : Instr} (h : (rowOf i).Selects w) (k : Nat)
    (hlow : operandWidth i ≤ k) (hk : k < 64) :
    w.getLsbD k = if k < 56 then false else i.opcode.getLsbD (k - 56) := by
  have hbit := congrArg (BitVec.getLsbD · k) h
  simp only [rowOf, BitVec.getLsbD_and, BitVec.getLsbD_shiftLeft, BitVec.getLsbD_allOnes,
    BitVec.getLsbD_cast, BitVec.getLsbD_append, BitVec.getLsbD_zero] at hbit
  have hin : k - operandWidth i < 64 := by omega
  simpa [hk, hlow.not_gt, hin] using hbit

/-- A word that a command's row selects has the command's form (R84). -/
theorem HasFormOf.of_selects {w : CmdWord} {i : Instr} (h : (rowOf i).Selects w) :
    HasFormOf w i := by
  have hle := operandWidth_le i
  refine ⟨BitVec.eq_of_getLsbD_eq fun k hk => ?_, BitVec.eq_of_getLsbD_eq fun k hk => ?_⟩
  · rw [opcodeOf, field_getLsbD, getLsbD_of_selects h (56 + k) (by omega) (by omega)]
    simp [hk]
  · rw [field_getLsbD, getLsbD_of_selects h (operandWidth i + k) (by omega) (by omega)]
    have hreserved : operandWidth i + k < 56 := by omega
    simp [hreserved]

/-- A word of a command's form decodes to a command of the same opcode. -/
theorem HasFormOf.decodes {w : CmdWord} {i : Instr} (h : HasFormOf w i) :
    ∃ j, decode w = some j ∧ j.opcode = i.opcode := by
  obtain ⟨hop, hres⟩ := h
  unfold decode
  rw [hop]
  cases i
  case frameBegin => exact ⟨_, rfl, rfl⟩
  all_goals exact ⟨_, if_pos hres, rfl⟩

/-- Settles O3: a row selects the words of its command's form, which decode to a command of its
opcode, and no two rows share an opcode. -/
theorem decodeFollowsMatchAndMask : Obligations.DecodeFollowsMatchAndMask := by
  intro w
  have hselected : ∀ r ∈ opcodeRows, r.Selects w →
      ∃ i, decode w = some i ∧ i.opcode.toNat = r.opcode := by
    intro r hr hsel
    obtain ⟨i, rfl⟩ := exists_rowOf r hr
    obtain ⟨j, hj, hop⟩ := (HasFormOf.of_selects hsel).decodes
    exact ⟨j, hj, congrArg BitVec.toNat hop⟩
  refine ⟨hselected, decode_eq_none_of_no_row w, fun r hr r' hr' hsel hsel' => ?_⟩
  obtain ⟨i, hi, hop⟩ := hselected r hr hsel
  obtain ⟨j, hj, hop'⟩ := hselected r' hr' hsel'
  obtain rfl := Option.some.inj (hi.symm.trans hj)
  exact row_eq_of_opcode_eq r hr r' hr' (hop.symm.trans hop')

/-- Settles O1: each of the seven words is computed both ways. -/
theorem workedWordsEncodeAndDecode : Obligations.WorkedWordsEncodeAndDecode := by
  unfold Obligations.WorkedWordsEncodeAndDecode
  simp only [List.forall_mem_cons, List.not_mem_nil, false_imp_iff, implies_true, and_true]
  decide

end Sys2Proof.Machine
end

section
/-!
SUPPORT. What it takes for a command's checks to pass, that every command then keeps the invariants of
the unit registers, and what the session invariant says of the codes; with them the statements on the
invariants of 10_state.md sections 3 to 7.
-/

namespace Sys2Proof.Machine

/-! ## The checks that pass -/

/-- What a command needs (R222): the conditions of its checks, each as it must hold. -/
def Allowed (i : Instr) (u : Units) : Prop :=
  match i with
  | .sbPush _ | .sbFlush | .sbClose => UnitAccess u
  | .bpOpen => UnitAccess u ∧ u.bp.state ≠ .opened
  | .bpInsert width _ =>
      UnitAccess u ∧ u.bp.state = .opened ∧ 1 ≤ width.toNat ∧ width.toNat ≤ 16
  | .bpFlush => UnitAccess u ∧ u.bp.state = .opened
  | .lzwInit n =>
      UnitAccess u ∧ u.lzw.state ≠ .matching ∧ (2 ≤ n.toNat ∧ n.toNat ≤ 8) ∧ u.bp.state = .opened
  | .lzwEncode k =>
      UnitAccess u ∧ u.lzw.state = .matching ∧ k.toNat < 2 ^ u.lzw.s.toNat ∧ u.bp.state = .opened
  | .lzwFlush => UnitAccess u ∧ u.lzw.state = .matching ∧ u.bp.state = .opened
  | .gifBegin width height _ =>
      UnitAccess u ∧ (width ≠ 0 ∧ height ≠ 0) ∧ u.lzw.state ≠ .matching ∧ u.bp.state ≠ .opened ∧
      u.sb.buf = []
  | .frameBegin width height _ _ => u.ca.state = .stream ∧ width ≠ 0 ∧ height ≠ 0
  | .pal _ _ _ => u.ca.state = .palette
  | .dataBegin => u.ca.state = .lctDone
  | .pixel k => u.ca.state = .pixels ∧ k.toNat < 2 ^ u.lzw.s.toNat
  | .frameEnd => u.ca.state = .pixels
  | .gifEnd => u.ca.state = .stream

/-- A command whose checks pass has what it needs, and the other way round (R222). -/
theorem passes_iff_allowed (i : Instr) (u : Units) : Passes i u ↔ Allowed i u := by
  have hrow : Passes i u ↔ ∀ y ∈ checkRow i u, ¬y.2 :=
    ⟨fun h y hy h2 => h y.1 ⟨y.2, hy, h2⟩, fun h _ ⟨_, hm, hp⟩ => h _ hm hp⟩
  have haccess : (¬u.ca.state = .idle → u.ca.state = .done) ↔ UnitAccess u :=
    or_iff_not_imp_left.symm
  rw [hrow]
  cases i <;> simp [checkRow, Allowed, haccess]

theorem firstFailing_none_iff_allowed (i : Instr) (u : Units) :
    firstFailing (checksOf i u) = none ↔ Allowed i u :=
  (firstFailing_none i u).trans (passes_iff_allowed i u)

/-! ## The invariants of the unit registers -/

/-- While the host may use the units, CA asks nothing of the other registers (10_state.md
section 6). -/
theorem caOk_of_access {u : Units} (h : UnitAccess u) : u.CaOk := by
  rcases h with h | h <;> simp [Units.CaOk, h]

/-- A command of SB, BP or LZW leaves CA alone, so it has to keep the other units' invariants only. -/
theorem ok_of_access {u v : Units} (h : UnitAccess u) (hca : v.ca = u.ca) (hpack : PackOk v)
    (hlzw : v.lzw.Ok) : v.Ok :=
  ⟨hpack.1, hpack.2, hlzw, caOk_of_access (by rwa [UnitAccess, hca])⟩

theorem Units.Ok.packOk {u : Units} (h : u.Ok) : PackOk u := ⟨h.1, h.2.1⟩

@[simp] theorem lzwEncode_s (k : Byte) (a : Act) :
    (lzwEncode k a).units.lzw.s = a.units.lzw.s := by
  unfold lzwEncode
  dsimp only
  split
  · rfl
  · rw [lzwMiss_lzw]
    split <;> rfl

/-- SBPush keeps SB below its cap (R106). -/
theorem sbPush_sbOk (b : Byte) (a : Act) (h : a.units.sb.Ok) : (sbPush b a).units.sb.Ok := by
  rw [sbPush_eq b a h]
  exact chunkRest_ok _ _ h (by simp)

theorem sbClose_sbOk (a : Act) (h : a.units.sb.Ok) : (sbClose a).units.sb.Ok := by
  unfold sbClose
  split
  · exact Nat.zero_le _
  · exact h

/-- The depth of a frame's palette is at most 8 (R181). -/
theorem depth_le_of_caOk {u : Units} (h : u.CaOk)
    (hca : u.ca.state = .palette ∨ u.ca.state = .lctDone ∨ u.ca.state = .pixels) :
    u.ca.depth.toNat ≤ 8 := by
  obtain ⟨_, _, _, hframe⟩ := h
  obtain ⟨_, h256, hdepth⟩ := hframe hca
  rw [hdepth]
  exact (depthOf_le_iff _ 8).mpr ⟨by omega, h256⟩

theorem freshBp_ok (state : BpState) : Bp.Ok { acc := 0, nbits := 0, state := state } := by
  simp [Bp.Ok]

/-- LZWEncode in an open session keeps SB, BP and LZW (R143 to R145). -/
theorem encode_keeps (k : Byte) (a : Act) (hpack : PackOk a.units) (hlzw : a.units.lzw.Ok)
    (hlive : a.units.lzw.state = .matching) (hopen : a.units.bp.state = .opened)
    (hk : k.toNat < 2 ^ a.units.lzw.s.toNat) :
    PackOk (lzwEncode k a).units ∧ (lzwEncode k a).units.lzw.Ok :=
  ⟨encode_packOk k a hpack hopen, fun _ => encode_sessionOk k a (hlzw hlive) hk⟩

/-- FRAME_BEGIN keeps the invariants: nothing waits in the units, and the palette is not empty
(R187). -/
theorem frameBegin_ok (width height delay : Half) (ncolors : BitVec 9) (a : Act) (h : a.units.Ok)
    (hca : a.units.ca.state = .stream) (h1 : 1 ≤ ncolors.toNat) (h256 : ncolors.toNat ≤ 256) :
    (frameBegin width height delay ncolors a).units.Ok := by
  obtain ⟨hsb, hbp, hlzw, hidle, -⟩ := h
  have h8 : depthOf ncolors.toNat ≤ 8 := (depthOf_le_iff _ 8).mpr ⟨by omega, h256⟩
  have hdepth : (BitVec.ofNat 4 (depthOf ncolors.toNat)).toNat = depthOf ncolors.toNat := by
    rw [BitVec.toNat_ofNat]
    omega
  rw [frameBegin_eq width height delay ncolors a _ rfl]
  exact ⟨hsb, hbp, hlzw, fun _ => hidle (.inl hca), nofun, fun _ => h1, fun _ => ⟨h1, h256, hdepth⟩⟩

/-- PAL keeps the invariants: an entry that is not the last leaves room for more, and the last one
ends the palette (R190). -/
theorem palEntry_ok (r g b : Byte) (a : Act) (h : a.units.Ok) (hca : a.units.ca.state = .palette) :
    (palEntry r g b a).units.Ok := by
  obtain ⟨hsb, hbp, hlzw, hidle, _, hcount, hframe⟩ := h
  have hlt := hcount hca
  have hn := hframe (.inl hca)
  by_cases hmore : a.units.ca.palcount.toNat + 1 < a.units.ca.ncolors.toNat
  · have hc : (BitVec.ofNat 9 (a.units.ca.palcount.toNat + 1)).toNat =
        a.units.ca.palcount.toNat + 1 := by
      rw [BitVec.toNat_ofNat]
      omega
    rw [palEntry_of_more r g b a hmore]
    exact ⟨hsb, hbp, hlzw, fun _ => hidle (.inr (.inl hca)), fun hp => by simp [hca] at hp,
      fun _ => by rw [hc]; exact hmore, fun _ => hn⟩
  · rw [palEntry_of_last r g b a (by omega)]
    exact ⟨hsb, hbp, hlzw, fun _ => hidle (.inr (.inl hca)), nofun, nofun, fun _ => hn⟩

/-- DATA_BEGIN keeps the invariants: it opens both sessions, with the minimum code size of the frame
(R192). -/
theorem dataBegin_ok (a : Act) (h : a.units.Ok) (hca : a.units.ca.state = .lctDone) :
    (dataBegin a).units.Ok := by
  obtain ⟨hsb, _, _, hcaOk⟩ := h
  have h8 := depth_le_of_caOk hcaOk (.inr (.inl hca))
  obtain ⟨_, _, _, hframe⟩ := hcaOk
  have hn := minCodeSize_toNat a.units.ca.depth
  have hinit := init_packOk (minCodeSize a.units.ca.depth)
    (bpOpen (a.emit ((minCodeSize a.units.ca.depth).setWidth 8))) ⟨hsb, freshBp_ok _⟩ rfl (by omega)
  have hsession := init_sessionOk (minCodeSize a.units.ca.depth)
    (bpOpen (a.emit ((minCodeSize a.units.ca.depth).setWidth 8))) (by omega) (by omega)
  refine ⟨hinit.1, hinit.2, fun _ => hsession, nofun, fun _ => ⟨?_, ?_, ?_⟩, nofun,
    fun _ => ?_⟩
  · simp [dataBegin]
  · simp [dataBegin]
  · simp [dataBegin, hn]
  · simpa [dataBegin] using hframe (.inr (.inl hca))

/-- PIXEL keeps the invariants: the sessions of the frame stay open (R193). -/
theorem pixel_ok (k : Byte) (a : Act) (h : a.units.Ok) (hca : a.units.ca.state = .pixels)
    (hk : k.toNat < 2 ^ a.units.lzw.s.toNat) : (lzwEncode k a).units.Ok := by
  obtain ⟨hsb, hbp, hlzw, hcaOk⟩ := h
  obtain ⟨_, hlive, _, hframe⟩ := hcaOk
  obtain ⟨hmatch, hopen, hs⟩ := hlive hca
  obtain ⟨hpack, hsession⟩ := encode_keeps k a ⟨hsb, hbp⟩ hlzw hmatch hopen hk
  refine ⟨hpack.1, hpack.2, hsession, ?_⟩
  simpa [Units.CaOk, hca, hmatch, hopen, hs] using hframe (.inr (.inr hca))

/-- FRAME_END keeps the invariants: both sessions are over and nothing waits (R194). -/
theorem frameEnd_ok (a : Act) (h : PackOk a.units) : (frameEnd a).units.Ok := by
  obtain ⟨hsb, hbits, hacc, _⟩ := h
  rw [frameEnd_eq a hbits hacc hsb]
  exact ⟨Nat.zero_le _, freshBp_ok _, nofun, fun _ => ⟨nofun, nofun, rfl⟩, nofun, nofun,
    fun h => by simp at h⟩

/-- Every command whose checks pass keeps the invariants of the unit registers. -/
theorem bodyOf_ok (i : Instr) (loopCount : Half) (a : Act) (hwf : i.wellFormed = true)
    (h : a.units.Ok) (hallowed : Allowed i a.units) : (bodyOf i loopCount a).units.Ok := by
  have hok := h
  obtain ⟨hsb, hbp, hlzw, _⟩ := h
  have ⟨hbits, hacc, _⟩ := hbp
  cases i
  case sbPush b =>
    exact ok_of_access hallowed (sbPush_ca b a)
      ⟨sbPush_sbOk b a hsb, by rw [bodyOf, sbPush_bp]; exact hbp⟩
      (by rw [bodyOf, sbPush_lzw]; exact hlzw)
  case sbFlush => exact ok_of_access hallowed rfl ⟨Nat.zero_le _, hbp⟩ hlzw
  case sbClose =>
    exact ok_of_access hallowed (sbClose_ca a)
      ⟨sbClose_sbOk a hsb, by rw [bodyOf, sbClose_bp]; exact hbp⟩
      (by rw [bodyOf, sbClose_lzw]; exact hlzw)
  case bpOpen =>
    obtain ⟨haccess, _⟩ := hallowed
    exact ok_of_access haccess rfl ⟨hsb, freshBp_ok _⟩ hlzw
  case bpInsert width value =>
    obtain ⟨haccess, hopen, _, hw⟩ := hallowed
    rw [bodyOf, bpInsert_eq width.toNat value a hw hbits hacc hsb]
    exact ok_of_access haccess rfl (codesRest_packOk _ _ hok.packOk hopen (by simp; omega)) hlzw
  case bpFlush =>
    obtain ⟨haccess, _⟩ := hallowed
    rw [bodyOf, bpFlush_eq a hbits hacc hsb]
    exact ok_of_access haccess rfl (flushRest_packOk _ _) hlzw
  case lzwInit n =>
    obtain ⟨haccess, _, ⟨h2, h8⟩, hopen⟩ := hallowed
    exact ok_of_access haccess (lzwInit_ca n a) (init_packOk n a hok.packOk hopen h8)
      fun _ => init_sessionOk n a h2 h8
  case lzwEncode k =>
    obtain ⟨haccess, hlive, hk, hopen⟩ := hallowed
    obtain ⟨hpack, hsession⟩ := encode_keeps k a hok.packOk hlzw hlive hopen hk
    exact ok_of_access haccess (lzwEncode_ca k a) hpack hsession
  case lzwFlush =>
    obtain ⟨haccess, _⟩ := hallowed
    rw [bodyOf, lzwFlush_eq a hbits hacc hsb]
    exact ok_of_access haccess rfl (flushRest_packOk _ _) nofun
  case gifBegin width height anim =>
    obtain ⟨_, _, hidle, hclosed, hempty⟩ := hallowed
    rw [bodyOf, gifBegin_eq]
    exact ⟨hsb, hbp, hlzw, fun _ => ⟨hidle, hclosed, hempty⟩, nofun, nofun, fun h => by simp at h⟩
  case frameBegin width height delay ncolors =>
    obtain ⟨hca, _⟩ := hallowed
    obtain ⟨h1, h256⟩ := ncolors_range hwf
    exact frameBegin_ok width height delay ncolors a hok hca h1 h256
  case pal r g b => exact palEntry_ok r g b a hok hallowed
  case dataBegin => exact dataBegin_ok a hok hallowed
  case pixel k =>
    obtain ⟨hca, hk⟩ := hallowed
    exact pixel_ok k a hok hca hk
  case frameEnd => exact frameEnd_ok a hok.packOk
  case gifEnd => exact ⟨hsb, hbp, hlzw, caOk_of_access (.inr rfl)⟩

/-! ## The invariant of the machine -/

/-- Between a reset and the first command everything is empty (R39). -/
theorem reset_ok : Units.reset.Ok :=
  ⟨Nat.zero_le _, freshBp_ok _, nofun, caOk_of_access (.inl rfl)⟩

theorem faultRegs_reset_ok : FaultRegs.reset.Ok := ⟨fun _ => ⟨rfl, rfl⟩, nofun⟩

/-- Settles O40: every unit is empty, and there is no fault. -/
theorem resetMeetsTheInvariant : Obligations.ResetMeetsTheInvariant :=
  ⟨faultRegs_reset_ok, fun _ => rfl, fun _ => reset_ok⟩

theorem hardReset_inv (s : State) : (hardReset s).Inv :=
  ⟨faultRegs_reset_ok, fun h => absurd rfl h, fun _ => reset_ok⟩

/-- The causes are numbered from 1 to 10 (R221). -/
theorem cause_code_range (c : Cause) : 1 ≤ c.code.toNat ∧ c.code.toNat ≤ 10 := by
  cases c <;> decide

/-- A fault entered between commands keeps the invariant, when it leaves the unit registers alone or
is SINK_ERROR (R224, R227). -/
theorem raise_inv (c : Cause) (op : BitVec 8) (s : State) (ho : s.offered = none)
    (hu : c ≠ .sinkError → s.units.Ok) : (raise c op s).Inv := by
  refine ⟨⟨nofun, fun _ => cause_code_range c⟩, fun h => absurd ho h, fun ⟨_, hspec⟩ => hu ?_⟩
  rintro rfl
  exact hspec ⟨rfl, rfl⟩

/-- In a ready state the spec gives the unit registers. -/
theorem State.Inv.units_ok {s : State} (h : s.Inv) (hs : Ready s) : s.units.Ok :=
  h.2.2 ⟨hs.1, fun hf => by simp [hs.2] at hf⟩

/-- The end of a command keeps the invariant: its writes stand, or the unit registers are
unspecified. -/
theorem settle_inv (op : BitVec 8) (a : Act) (s : State) (h : s.Inv) (hs : Ready s)
    (ha : a.units.Ok) : (settle op a s).Inv := by
  obtain ⟨taken, left, _, ⟨_, heq⟩ | heq | ⟨b, heq⟩⟩ := settle_cases op a s
  · rw [heq]
    exact ⟨h.1, h.2.1, fun _ => ha⟩
  · rw [heq]
    exact raise_inv _ _ _ hs.1 fun hc => absurd rfl hc
  · rw [heq]
    exact ⟨h.1, fun _ => hs.2, fun hspec => nomatch hspec.1⟩

/-- Every well-formed command keeps the invariant. -/
theorem exec_inv (i : Instr) (s t : State) (hwf : i.wellFormed = true) (h : s.Inv)
    (ht : exec i s = .next t) : t.Inv := by
  obtain ⟨ho, ⟨_, rfl⟩ | ⟨hf, c, _, rfl⟩ | ⟨hf, hc, rfl⟩⟩ := exec_next i s t ht
  · exact h
  · exact raise_inv _ _ _ ho fun _ => h.units_ok ⟨ho, hf⟩
  · have hallowed := (firstFailing_none_iff_allowed i s.units).mp hc
    exact settle_inv _ _ s h ⟨ho, hf⟩ (bodyOf_ok i _ _ hwf (h.units_ok ⟨ho, hf⟩) hallowed)

/-- An illegal word keeps the invariant. -/
theorem illegalWord_inv (w : CmdWord) (s t : State) (h : s.Inv)
    (ht : illegalWord w s = .next t) : t.Inv := by
  obtain ⟨ho, ⟨_, rfl⟩ | ⟨hf, rfl⟩⟩ := whenReady_next s t _ ht
  · exact h
  · exact raise_inv _ _ _ ho fun _ => h.units_ok ⟨ho, hf⟩

/-- Settles O41: a wait changes nothing, a reset gives the reset values, and a word either is illegal
or decodes to a well-formed command, whose operation keeps the invariants of the unit registers. -/
theorem stepKeepsTheInvariant : Obligations.StepKeepsTheInvariant := by
  intro s t h ht
  obtain ⟨_, rfl⟩ | ⟨events, _, rfl⟩ | ⟨w, events, _, hp⟩ := step_next s t ht
  · exact h
  · exact hardReset_inv _
  · have hs : State.Inv { s with host := events } := h
    obtain ⟨i, hi, hexec⟩ | ⟨_, hillegal⟩ := present_cases w { s with host := events }
    · exact exec_inv i _ t (decode_wellFormed w i hi) hs (hexec ▸ hp)
    · exact illegalWord_inv w _ t hs (hillegal ▸ hp)

/-! ## The codes of a session -/

/-- Settles O42: the codes in use are below `lzw_next`, whose predecessor fits the width, and they
strictly rise in the dictionary. -/
theorem everyCodeFitsTheWidth : Obligations.EveryCodeFitsTheWidth := by
  intro z ⟨_, ⟨_, hw12⟩, ⟨hfirst, _⟩, hwf, hcodes, _, _, _, _, _, hfits, _⟩
  obtain ⟨hpairs, _⟩ := (wf_iff z.dict).mp hwf
  refine ⟨fun m c hc => ?_, by omega, fun hfull => ?_, fun m m' c hm hm' => ?_⟩
  · have hin : c.toNat ∈ codesInUse z.s.toNat z.next.toNat :=
      hcodes ▸ List.mem_map.mpr ⟨(m, c), lookup_mem _ _ _ hc, rfl⟩
    have hlt := codesInUse_lt _ _ _ hfirst hin
    omega
  · by_contra hne
    have hpow : 2 ^ z.width.toNat ≤ 2 ^ 11 := Nat.pow_le_pow_right (by omega) (by omega)
    omega
  · have hdistinct : (z.dict.map Prod.snd).Nodup :=
      List.pairwise_map.mpr (hpairs.imp fun h heq => h.1.ne (congrArg BitVec.toNat heq))
    exact congrArg Prod.fst
      (List.inj_on_of_nodup_map hdistinct (lookup_mem _ _ _ hm) (lookup_mem _ _ _ hm') rfl)

end Sys2Proof.Machine
end

section
/-!
SUPPORT. A word presented to the machine, and the end of a command for a sink that accepts and for one
that never answers; with them the statements on a step (R70), on commands that complete (R10) and on
reset in the middle of a command (R250, R261).
-/

namespace Sys2Proof.Machine

/-! ## Presenting a word -/

theorem present_of_decode (w : CmdWord) (s : State) (i : Instr) (h : decode w = some i) :
    present w s = exec i s := by
  simp [present, h]

/-- Settles O6: a step presents the word, and presenting it runs the command it decodes to. -/
theorem stepRunsDecodedCommand : Obligations.StepRunsDecodedCommand := by
  intro s w events i hhost hw
  rw [step_of_command s w events hhost, present_of_decode w _ i hw]

/-- Settles O7: with no event a step is a wait. -/
theorem stepWaitsWithoutEvent : Obligations.StepWaitsWithoutEvent := step_of_host_nil

/-- Behind a sink that never answers a word, legal or not, is not taken (R261). -/
theorem present_waiting (w : CmdWord) (s : State) (b : Byte) (h : s.offered = some b) :
    present w s = .fault .sinkNeverAnswers := by
  obtain ⟨i, _, hp⟩ | ⟨_, hp⟩ := present_cases w s
  · exact hp.trans (exec_waiting i s b h)
  · exact hp.trans (whenReady_waiting s _ b h)

/-- Settles O16: the step presents the word, which is not taken. -/
theorem commandBehindSilentSinkIsStuck : Obligations.CommandBehindSilentSinkIsStuck := by
  intro s b w events ho hhost
  rw [step_of_command s w events hhost]
  exact present_waiting w { s with host := events } b ho

/-! ## The sink accepts -/

/-- A sink whose every answer is that it accepts takes any number of bytes. -/
theorem sinkTakes_of_accepts (s : State) (n : Nat) (h : ∀ x ∈ s.sink, x = .accept) :
    SinkTakes s n := fun x hx => h x (List.mem_of_mem_take hx)

/-- Settles O17: the operation runs to its end, and the sink takes every byte it offers. -/
theorem passingCommandCompletes : Obligations.PassingCommandCompletes := by
  intro s i hready hpass haccepts
  have hexec := exec_passes i s hready ((firstFailing_none i s.units).mpr hpass)
    (sinkTakes_of_accepts s _ haccepts)
  exact ⟨_, (ran i s).offers, hexec, rfl, hready.1, rfl, rfl, rfl, rfl, rfl⟩

/-! ## The sink never answers -/

/-- When the sink never answers byte number `k` of a command, it has taken the bytes before it, and
the command stays in progress with that byte offered (R261). -/
theorem settle_hangs (op : BitVec 8) (a : Act) (s : State) (k : Nat) (left : List SinkAnswer)
    (hk : k < a.offers.length) :
    settle op a { s with sink := List.replicate k .accept ++ .stall :: left } =
      { forgetUnits { s with out := s.out ++ a.offers.take k, sink := left } with
        offered := some a.offers[k] } := by
  have hd := deliver_stops a.offers k .stall left hk (by decide)
  rw [if_neg (by decide)] at hd
  simp only [settle, hd]

/-- Settles O15: the command stays at the byte the sink never answers, with that byte offered; the
reset withdraws it and keeps what the sink has taken. -/
theorem resetAbandonsTheCommandInProgress : Obligations.ResetAbandonsTheCommandInProgress := by
  intro s t i bytes k left events hready hpass ht hout hk
  have hc := (firstFailing_none i s.units).mpr hpass
  obtain rfl := ran_offers_of_exec i s t bytes hready hc ht hout
  have hexec :=
    exec_settles i { s with sink := List.replicate k .accept ++ .stall :: left } hready hc
  rw [ran_with_sink, settle_hangs i.opcode _ s k left hk] at hexec
  exact ⟨_, hexec, (List.getElem?_eq_getElem hk).symm, rfl, rfl, _, step_of_reset _ events rfl, rfl,
    rfl, rfl, rfl, rfl⟩

end Sys2Proof.Machine
end

section
/-!
SUPPORT. What LZWEncode does on a hit and on a miss, and that the procedures of BP do not read the LZW
registers; with them the statements of 42_lzw_compressor.md on LZW_ENCODE and PIXEL (R143 to R145), and
on a new session (R40).
-/

namespace Sys2Proof.Machine

/-! ## Encoding a symbol -/

/-- A symbol that LZW_ENCODE or PIXEL may encode passes the checks of the command (R148, R193). -/
theorem EncodeReady.passes {i : Instr} {k : Byte} {u : Units} (h : EncodeReady i k u) :
    firstFailing (checksOf i u) = none := by
  obtain ⟨hk, ⟨rfl, haccess, hlive, hopen⟩ | ⟨rfl, hca⟩⟩ := h
  · exact (firstFailing_none_iff_allowed _ u).mpr ⟨haccess, hlive, hk, hopen⟩
  · exact (firstFailing_none_iff_allowed _ u).mpr ⟨hca, hk⟩

/-- The operation of LZW_ENCODE and that of PIXEL are LZWEncode (R148, R193). -/
theorem EncodeReady.ran_eq {i : Instr} {k : Byte} {s : State} (h : EncodeReady i k s.units) :
    ran i s = lzwEncode k { units := s.units, offers := [] } := by
  obtain ⟨_, ⟨rfl, _⟩ | ⟨rfl, _⟩⟩ := h <;> rfl

/-- A hit: the candidate becomes the matched buffer (R143). -/
theorem lzwEncode_of_hit (k : Byte) (a : Act)
    (h : (Dict.lookup a.units.lzw.dict (a.units.lzw.matched ++ [k])).isSome = true) :
    lzwEncode k a = a.setLzw { a.units.lzw with matched := a.units.lzw.matched ++ [k] } := by
  obtain ⟨c, hc⟩ := Option.isSome_iff_exists.mp h
  simp only [lzwEncode, hc]

/-- A miss writes (R143). -/
theorem lzwEncode_of_miss (k : Byte) (a : Act)
    (h : Dict.lookup a.units.lzw.dict (a.units.lzw.matched ++ [k]) = none) :
    lzwEncode k a = lzwMiss k a := by
  simp only [lzwEncode, h]

/-- Settles O27: the operation moves the candidate into the matched buffer and offers nothing. -/
theorem encodeHitExtendsTheMatch : Obligations.EncodeHitExtendsTheMatch := by
  intro s i k hready hencode hhit
  exact exec_offers_nothing i s _ hready hencode.passes
    (hencode.ran_eq.trans (lzwEncode_of_hit k _ hhit))

/-- The insertion of a miss, its new values by arithmetic (R143, R144). -/
theorem lzwInsert_eq (cand : List Byte) (z : Lzw) :
    lzwInsert cand z = { z with
      dict := z.dict ++ [(cand, BitVec.ofNat 12 z.next.toNat)]
      next := BitVec.ofNat 13 (z.next.toNat + 1)
      width := BitVec.ofNat 4
        (if z.next.toNat = 2 ^ z.width.toNat ∧ z.width.toNat < 12 then z.width.toNat + 1
         else z.width.toNat) } := by
  have hnext : z.next + 1 = BitVec.ofNat 13 (z.next.toNat + 1) := BitVec.eq_of_toNat_eq (by simp)
  have hwidth : z.width + 1 = BitVec.ofNat 4 (z.width.toNat + 1) := BitVec.eq_of_toNat_eq (by simp)
  rw [lzwInsert, Dict.insert, hnext, hwidth, apply_ite (BitVec.ofNat 4), BitVec.ofNat_toNat,
    BitVec.ofNat_toNat, BitVec.setWidth_eq]

/-- Settles O28: the operation writes the code of the matched buffer and inserts the candidate. -/
theorem encodeMissAssignsTheNextCode : Obligations.EncodeMissAssignsTheNextCode := by
  intro s i k c hready hencode hmiss hcode hroom ⟨hbits, hacc, _⟩ hsb z codes hsink
  have hrun := lzwMiss_room { units := s.units, offers := [] } hbits hacc hsb k hroom
  rw [codeOf_of_lookup _ _ c hcode, lzwInsert_eq, ← lzwEncode_of_miss k _ hmiss,
    ← hencode.ran_eq] at hrun
  exact exec_ran i s _ (codesOut s.units codes) hready hencode.passes hrun hsink

/-- Settles O29: the operation writes the code of the matched buffer and the clear code, and seeds the
dictionary. -/
theorem encodeMissOnFullDictionaryClears : Obligations.EncodeMissOnFullDictionaryClears := by
  intro s i k c hready hencode hmiss hcode hfull ⟨hbits, hacc, _⟩ hsb z codes hsink
  have hrun := lzwMiss_full { units := s.units, offers := [] } hbits hacc hsb k
    (by rw [hfull]; omega)
  rw [codeOf_of_lookup _ _ c hcode, ← lzwEncode_of_miss k _ hmiss, ← hencode.ran_eq] at hrun
  exact exec_ran i s _ (codesOut s.units codes) hready hencode.passes hrun hsink

/-- The bytes that leave BP when codes are written. -/
theorem codeBytes_length (bp : Bp) (codes : List (Nat × Nat)) :
    (codeBytes bp codes).length = (bp.nbits.toNat + (codes.map Prod.fst).sum) / 8 := by
  rw [codeBytes, wholeBytes_length, joinCodes_count]

/-- What LZWEncode writes joins SB as a few bytes (R143): none on a hit, those of the codes on a
miss. -/
theorem lzwEncode_chunk (k : Byte) (a : Act) (h : PackOk a.units) :
    ∃ bytes, bytes.length ≤ 255 ∧
      (lzwEncode k a).units.sb = chunkRest a.units.sb bytes ∧
      (lzwEncode k a).offers = a.offers ++ chunkOut a.units.sb bytes := by
  obtain ⟨hsb, hbits, hacc, _⟩ := h
  have hw := a.units.lzw.width.isLt
  cases hlook : Dict.lookup a.units.lzw.dict (a.units.lzw.matched ++ [k]) with
  | some c =>
    refine ⟨[], by simp, ?_, ?_⟩ <;> rw [lzwEncode_of_hit k a (by rw [hlook]; rfl)]
    · exact (chunkRest_nil _ hsb).symm
    · rw [chunkOut_nil _ hsb, List.append_nil]
      rfl
  | none =>
    rw [lzwEncode_of_miss k a hlook]
    rcases Nat.lt_or_ge 4095 a.units.lzw.next.toNat with hfull | hroom
    · rw [lzwMiss_full a hbits hacc hsb k hfull]
      exact ⟨codeBytes a.units.bp _, by rw [codeBytes_length]; simp; omega, rfl, rfl⟩
    · rw [lzwMiss_room a hbits hacc hsb k hroom]
      exact ⟨codeBytes a.units.bp _, by rw [codeBytes_length]; simp; omega, rfl, rfl⟩

/-! ## A new session -/

theorem sbPush_setLzw (b : Byte) (z : Lzw) (a : Act) :
    sbPush b (a.setLzw z) = (sbPush b a).setLzw z := by
  unfold sbPush
  dsimp only [setLzw_sb]
  split <;> rfl

theorem bpSend_setLzw (z : Lzw) (a : Act) : bpSend (a.setLzw z) = (bpSend a).setLzw z := by
  simp only [bpSend, setLzw_bp, sbPush_setLzw]
  rfl

theorem bpDrain_setLzw (n : Nat) (z : Lzw) (a : Act) :
    bpDrain n (a.setLzw z) = (bpDrain n a).setLzw z := by
  induction n generalizing a with
  | zero => rfl
  | succ n ih => rw [bpDrain, bpSend_setLzw, ih, bpDrain]

/-- BPInsert neither reads nor writes the LZW registers. -/
theorem bpInsert_setLzw (w : Nat) (v : Half) (z : Lzw) (a : Act) :
    bpInsert w v (a.setLzw z) = (bpInsert w v a).setLzw z := by
  rw [bpInsert, setLzw_bp, bpInsert]
  exact bpDrain_setLzw _ z (a.setBp (bpLoad w v a.units.bp))

/-- LZWInit is the clear code and the registers of a fresh session (R142). -/
theorem lzwInit_eq_setLzw (n : BitVec 4) (a : Act) :
    lzwInit n a = (bpInsert (firstWidth n).toNat (clearCode n) a).setLzw
      { state := .matching, s := n, width := firstWidth n, next := firstCode n,
        dict := Dict.seed n, matched := [] } := by
  rw [lzwInit, lzwEmit]
  simp only [setLzw_lzw, lzwSeeded, bpInsert_setLzw]
  rfl

/-- LZWInit overwrites every LZW register before it reads it (R40). -/
theorem lzwInit_setLzw (n : BitVec 4) (z : Lzw) (a : Act) :
    lzwInit n (a.setLzw z) = lzwInit n a := by
  rw [lzwInit_eq_setLzw, bpInsert_setLzw, lzwInit_eq_setLzw]
  rfl

/-- DATA_BEGIN overwrites every register of BP and LZW before it reads it (R40). -/
theorem dataBegin_forgets (z : Lzw) (p : Bp) (a : Act) :
    dataBegin ((a.setLzw z).setBp p) = dataBegin a := by
  have hopen : ∀ b, bpOpen (((a.setLzw z).setBp p).emit b) = (bpOpen (a.emit b)).setLzw z :=
    fun _ => rfl
  simp only [dataBegin, setBp_ca, setLzw_ca, hopen, lzwInit_setLzw]

/-- The end of a command does not read the unit registers it started from. -/
theorem settle_with_units (op : BitVec 8) (a : Act) (s : State) (u : Units) :
    settle op a { s with units := u } = settle op a s := by
  cases h : (deliver a.offers s.sink).ended <;> simp [settle, h, raise, forgetUnits]

/-- A command gives one outcome from two settings of the unit registers, when its checks pass in both
and its operation comes to the same. -/
theorem exec_congr_units (i : Instr) (s : State) (u : Units) (hs : Ready s)
    (hc : firstFailing (checksOf i s.units) = none) (hc' : firstFailing (checksOf i u) = none)
    (hr : ran i { s with units := u } = ran i s) : exec i { s with units := u } = exec i s := by
  rw [exec_settles i s hs hc, exec_settles i { s with units := u } hs hc', hr, settle_with_units]

/-- Settles O32: the checks pass in both states, and the operation overwrites the registers in which
they differ. -/
theorem newSessionForgetsTheOldOne : Obligations.NewSessionForgetsTheOldOne := by
  intro s z p n hready
  refine ⟨fun haccess hidle hidle' h2 h8 hopen => ?_, fun hca => ?_⟩
  · exact exec_congr_units (.lzwInit n) s _ hready
      (lzwInit_passes s.units n haccess hidle h2 h8 hopen)
      (lzwInit_passes { s.units with lzw := z } n haccess hidle' h2 h8 hopen)
      (lzwInit_setLzw n z { units := s.units, offers := [] })
  · exact exec_congr_units .dataBegin s _ hready (caIs_passes .lctDone s.units hca)
      (caIs_passes .lctDone { s.units with lzw := z, bp := p } hca)
      (dataBegin_forgets z p { units := s.units, offers := [] })

end Sys2Proof.Machine
end

section
/-!
SUPPORT. What a command writes and how many bytes it offers, for each of the sixteen commands; with them
the statements on the frame of a command (R21), on the sequencing registers (R128, R150, R182) and on
the work per command (70_reset_and_hazards.md section 3).
-/

namespace Sys2Proof.Machine

/-! ## Frames of the container's operations -/

@[simp] theorem gifBegin_units (width height : Half) (anim : Bool) (loopCount : Half) (a : Act) :
    (gifBegin width height anim loopCount a).units =
      { a.units with ca := { a.units.ca with state := .stream } } := by
  rw [gifBegin_eq]

@[simp] theorem frameBegin_units (width height delay : Half) (ncolors : BitVec 9) (a : Act) :
    (frameBegin width height delay ncolors a).units =
      { a.units with ca := { state := .palette, ncolors := ncolors,
                             depth := BitVec.ofNat 4 (depthOf ncolors.toNat), palcount := 0 } } :=
  rfl

/-- PAL counts the entry, and with the last one moves to LCT_DONE (R190). -/
@[simp] theorem palEntry_units (r g b : Byte) (a : Act) :
    (palEntry r g b a).units =
      { a.units with ca := { a.units.ca with
          palcount := a.units.ca.palcount + 1
          state := if a.units.ca.palcount + 1 = a.units.ca.ncolors then .lctDone
                   else a.units.ca.state } } := by
  unfold palEntry
  dsimp only
  split <;> rfl

@[simp] theorem dataBegin_ca (a : Act) :
    (dataBegin a).units.ca = { a.units.ca with state := .pixels } := by
  simp [dataBegin]
@[simp] theorem dataBegin_bpState (a : Act) : (dataBegin a).units.bp.state = .opened := by
  simp [dataBegin]
@[simp] theorem dataBegin_lzwState (a : Act) : (dataBegin a).units.lzw.state = .matching := by
  simp [dataBegin]

@[simp] theorem terminate_bp (a : Act) : (terminate a).units.bp = a.units.bp := by
  unfold terminate; split <;> rfl
@[simp] theorem terminate_lzw (a : Act) : (terminate a).units.lzw = a.units.lzw := by
  unfold terminate; split <;> rfl
@[simp] theorem terminate_ca (a : Act) : (terminate a).units.ca = a.units.ca := by
  unfold terminate; split <;> rfl

@[simp] theorem frameEnd_bpState (a : Act) : (frameEnd a).units.bp.state = .flushed := by
  simp [frameEnd]
@[simp] theorem frameEnd_lzw (a : Act) :
    (frameEnd a).units.lzw = { a.units.lzw with state := .flushed, matched := [] } := by
  simp [frameEnd]
@[simp] theorem frameEnd_ca (a : Act) :
    (frameEnd a).units.ca = { a.units.ca with state := .stream } := by
  simp [frameEnd]

@[simp] theorem gifEnd_units (a : Act) :
    (gifEnd a).units = { a.units with ca := { a.units.ca with state := .done } } := rfl

/-! ## What a command writes -/

/-- All that a command can do when the spec gives the registers it leaves: nothing, a fault entry by
one of its checks, or its whole operation (R10, R227). -/
theorem exec_next_specified (i : Instr) (s t : State) (h : exec i s = .next t) (ht : Specified t) :
    t = s ∨
    (s.faultRegs.flt = false ∧ ∃ c, t = raise c i.opcode s) ∨
    (Allowed i s.units ∧ ∃ left, t = { s with
      units := (ran i s).units, out := s.out ++ (ran i s).offers, sink := left }) := by
  obtain ⟨_, ⟨_, rfl⟩ | ⟨hf, c, _, rfl⟩ | ⟨_, hc, rfl⟩⟩ := exec_next i s t h
  · exact .inl rfl
  · exact .inr (.inl ⟨hf, c, rfl⟩)
  · refine .inr (.inr ⟨(firstFailing_none_iff_allowed i s.units).mp hc, ?_⟩)
    obtain ⟨taken, left, _, ⟨rfl, heq⟩ | heq | ⟨b, heq⟩⟩ := settle_cases i.opcode (ran i s) s
    · exact ⟨left, heq⟩
    · rw [heq] at ht
      exact absurd ⟨rfl, rfl⟩ ht.2
    · rw [heq] at ht
      exact nomatch ht.1

/-- A command leaves the unit registers and `out` alone, or they are what its operation makes of
them. -/
theorem exec_units (i : Instr) (s t : State) (h : exec i s = .next t) (ht : Specified t) :
    (t.units = s.units ∧ t.out = s.out) ∨
    (Allowed i s.units ∧ t.units = (ran i s).units ∧ t.out = s.out ++ (ran i s).offers) := by
  obtain rfl | ⟨_, c, rfl⟩ | ⟨hallowed, left, rfl⟩ := exec_next_specified i s t h ht
  · exact .inl ⟨rfl, rfl⟩
  · exact .inl ⟨rfl, rfl⟩
  · exact .inr ⟨hallowed, rfl, rfl⟩

/-- A command leaves the environment alone, and the fault registers unless it enters a fault
(R21). -/
theorem exec_frame (i : Instr) (s t : State) (h : exec i s = .next t) (ht : Specified t) :
    t.host = s.host ∧ t.loopCount = s.loopCount ∧ t.freeCount = s.freeCount ∧
    (t.faultRegs = s.faultRegs ∨ (s.faultRegs.flt = false ∧ t.faultRegs.flt = true)) := by
  obtain rfl | ⟨hf, c, rfl⟩ | ⟨_, left, rfl⟩ := exec_next_specified i s t h ht
  · exact ⟨rfl, rfl, rfl, .inl rfl⟩
  · exact ⟨rfl, rfl, rfl, .inr ⟨hf, rfl⟩⟩
  · exact ⟨rfl, rfl, rfl, .inl rfl⟩

/-- Settles O45: a command writes nothing, or what its operation writes, which is said by the frame of
the operation. -/
theorem commandsWriteOnlyTheirRegisters : Obligations.CommandsWriteOnlyTheirRegisters := by
  intro s t i h _ ht
  obtain ⟨hhost, hloop, hfree, hfault⟩ := exec_frame i s t h ht
  refine ⟨hhost, hloop, hfree, hfault, ?_⟩
  obtain ⟨hu, hout⟩ | ⟨_, hu, hout⟩ := exec_units i s t h ht
  · cases i <;> simp [hu, hout]
  · cases i <;> simp [hu, hout, ran, bodyOf]

/-- Settles O44: a command leaves the sequencing registers alone, or its checks pass, which say where
they are, and its operation says where they go. -/
theorem sequencingRegistersMoveByTheTables : Obligations.SequencingRegistersMoveByTheTables := by
  intro s t i h _ ht
  obtain ⟨hu, _⟩ | ⟨hallowed, hu, _⟩ := exec_units i s t h ht
  · simp [hu]
  cases i
  case sbPush | sbFlush | sbClose | bpInsert | lzwEncode | pixel => simp [hu, ran, bodyOf]
  case bpOpen =>
    obtain ⟨_, hclosed⟩ := hallowed
    simp [hu, ran, bodyOf, Instr.opcode, hclosed]
  case bpFlush =>
    obtain ⟨_, hopen⟩ := hallowed
    simp [hu, ran, bodyOf, Instr.opcode, hopen]
  case lzwInit n =>
    obtain ⟨_, hidle, _⟩ := hallowed
    simp [hu, ran, bodyOf, Instr.opcode, hidle]
  case lzwFlush =>
    obtain ⟨_, hlive, hopen⟩ := hallowed
    simp [hu, ran, bodyOf, Instr.opcode, hlive, hopen]
  case gifBegin width height anim =>
    obtain ⟨hca | hca, _⟩ := hallowed <;> simp [hu, ran, bodyOf, Instr.opcode, hca]
  case frameBegin width height delay ncolors =>
    obtain ⟨hca, _⟩ := hallowed
    simp [hu, ran, bodyOf, Instr.opcode, hca]
  case pal r g b =>
    have hca : s.units.ca.state = .palette := hallowed
    simp [hu, ran, bodyOf, Instr.opcode, hca, ne_or_eq]
  case dataBegin | frameEnd | gifEnd =>
    have hca : s.units.ca.state = _ := hallowed
    simp [hu, ran, bodyOf, Instr.opcode, hca]

/-! ## How many bytes a command offers -/

/-- At most one full chunk leaves SB when bytes join it. -/
theorem chunkOut_length_le (sb : Sb) (bytes : List Byte) : (chunkOut sb bytes).length ≤ 256 := by
  unfold chunkOut
  split <;> simp

/-- A flush writes the bytes that wait and those that join them, each chunk with its length. -/
theorem flushOut_length_le (u : Units) (codes : List (Nat × Nat)) :
    (flushOut u codes).length ≤ u.sb.buf.length + (finalBytes u.bp codes).length + 2 := by
  unfold flushOut chunkOut chunkRest lastChunk
  split
  · simp
  · simp
    omega

/-- LZWEncode writes at most one full chunk. -/
theorem lzwEncode_offers_le (k : Byte) (u : Units) (h : PackOk u) :
    (lzwEncode k { units := u, offers := [] }).offers.length ≤ 256 := by
  obtain ⟨bytes, _, _, hoffers⟩ := lzwEncode_chunk k { units := u, offers := [] } h
  rw [hoffers]
  exact chunkOut_length_le u.sb bytes

/-- The closing codes of a session, at most two and at most 12 bits wide, have some bit and at most
24. -/
theorem closingCodes_widths (z : Lzw) (c : Code) (h : z.SessionOk) :
    0 < ((closingCodes z c).map Prod.fst).sum ∧ ((closingCodes z c).map Prod.fst).sum ≤ 24 := by
  obtain ⟨_, ⟨hlow, hhigh⟩, _⟩ := h
  unfold closingCodes
  split <;> simp <;> omega

/-- A flush after the closing codes of a session writes at most 260 bytes. -/
theorem closing_flushOut_length_le (u : Units) (c : Code) (hpack : PackOk u)
    (hz : u.lzw.SessionOk) :
    (flushOut u (closingCodes u.lzw c)).length ≤ 260 := by
  obtain ⟨hsb, hbits, _⟩ := hpack
  have hwait : u.sb.buf.length ≤ 254 := hsb
  have hlen := flushOut_length_le u (closingCodes u.lzw c)
  have hfinal := finalBytes_length u.bp (closingCodes u.lzw c)
  obtain ⟨_, hsum⟩ := closingCodes_widths u.lzw c hz
  omega

/-- A palette takes at most 128 copies of its last entry: the entry itself, and fewer than half the
table as padding (R190). -/
theorem padding_le {ca : Ca} (h1 : 1 ≤ ca.ncolors.toNat) (h256 : ca.ncolors.toNat ≤ 256)
    (hdepth : ca.depth.toNat = depthOf ca.ncolors.toNat) :
    1 + (2 ^ ca.depth.toNat - ca.ncolors.toNat) ≤ 128 := by
  have h8 : depthOf ca.ncolors.toNat ≤ 8 := (depthOf_le_iff _ 8).mpr ⟨by omega, h256⟩
  have hreach := (depthOf_le_iff ca.ncolors.toNat _).mp le_rfl
  obtain ⟨e, he⟩ : ∃ e, depthOf ca.ncolors.toNat = e + 1 := ⟨_, (Nat.sub_add_cancel hreach.1).symm⟩
  have hleast : ¬(1 ≤ e ∧ ca.ncolors.toNat ≤ 2 ^ e) := by
    rw [← depthOf_le_iff]
    omega
  have hpow : 2 ^ e ≤ 2 ^ 7 := Nat.pow_le_pow_right (by omega) (by omega)
  rw [hdepth, he, Nat.pow_succ]
  rcases Nat.eq_zero_or_pos e with rfl | hpos <;> omega

/-- The clear code of a frame waits in BP and SB, which are empty before it (R192). -/
theorem clearCode_waits (u : Units) (n : Nat) (hn : n ≤ 8) (hempty : u.sb.buf = []) :
    codesOut { u with bp := { acc := 0, nbits := 0, state := .opened } } [(n + 1, 2 ^ n)] = [] := by
  refine if_pos ?_
  simp [hempty, codeBytes, joinCodes]
  omega

/-- A command whose checks pass offers at most as many bytes as its bound. -/
theorem ran_offers_le (i : Instr) (s : State) (hwf : i.wellFormed = true) (h : s.units.Ok)
    (hallowed : Allowed i s.units) : (ran i s).offers.length ≤ workBound i := by
  have hpack := h.packOk
  obtain ⟨hsb, ⟨hbits, hacc, _⟩, hlzw, hcaOk⟩ := h
  have hlen : s.units.sb.buf.length ≤ 254 := hsb
  simp only [ran]
  cases i
  case sbPush b =>
    rw [bodyOf, sbPush_eq b { units := s.units, offers := [] } hsb]
    exact chunkOut_length_le _ _
  case sbFlush => simp [bodyOf, workBound]; omega
  case sbClose =>
    by_cases hempty : s.units.sb.buf = []
    · rw [bodyOf, sbClose_empty _ hempty]
      exact Nat.zero_le _
    · rw [bodyOf, sbClose_of_pos _ (List.length_pos_of_ne_nil hempty)]
      simp [workBound]
      omega
  case bpOpen => simp [bodyOf]
  case bpInsert width value =>
    obtain ⟨_, _, _, hw⟩ := hallowed
    rw [bodyOf, bpInsert_eq width.toNat value { units := s.units, offers := [] } hw hbits hacc hsb]
    exact chunkOut_length_le _ _
  case bpFlush =>
    have hflush := flushOut_length_le s.units []
    have hfinal := finalBytes_length s.units.bp []
    rw [bodyOf, bpFlush_eq { units := s.units, offers := [] } hbits hacc hsb]
    simp [workBound] at hfinal ⊢
    omega
  case lzwInit n =>
    obtain ⟨_, _, ⟨_, h8⟩, _⟩ := hallowed
    rw [bodyOf, lzwInit_eq { units := s.units, offers := [] } hbits hacc hsb n h8]
    exact chunkOut_length_le _ _
  case lzwEncode k | pixel k => exact lzwEncode_offers_le k s.units hpack
  case lzwFlush =>
    obtain ⟨_, hlive, _⟩ := hallowed
    rw [bodyOf, lzwFlush_eq { units := s.units, offers := [] } hbits hacc hsb]
    exact closing_flushOut_length_le _ _ hpack (hlzw hlive)
  case gifBegin width height anim =>
    rw [bodyOf, gifBegin_eq]
    cases anim <;> 
      simp [streamHeader, signatureBytes, screenDescriptorBytes, loopExtensionBytes, bytes16,
        workBound]
  case frameBegin width height delay ncolors =>
    simp [bodyOf, frameBegin, gceBytes, imageDescriptorBytes, bytes16, workBound]
  case pal r g b =>
    obtain ⟨_, _, hcount, hframe⟩ := hcaOk
    have hlt := hcount hallowed
    obtain ⟨h1, h256, hdepth⟩ := hframe (.inl hallowed)
    have hpad := padding_le h1 h256 hdepth
    by_cases hmore : s.units.ca.palcount.toNat + 1 < s.units.ca.ncolors.toNat
    · rw [bodyOf, palEntry_of_more r g b { units := s.units, offers := [] } hmore]
      simp [workBound]
    · rw [bodyOf, palEntry_of_last r g b { units := s.units, offers := [] } (by dsimp only; omega)]
      simp [workBound]
      omega
  case dataBegin =>
    have h8 := depth_le_of_caOk hcaOk (.inr (.inl hallowed))
    obtain ⟨hidle, _⟩ := hcaOk
    obtain ⟨_, _, hempty⟩ := hidle (.inr (.inr hallowed))
    rw [bodyOf, dataBegin_eq { units := s.units, offers := [] } hsb h8]
    dsimp only
    rw [clearCode_waits s.units _ (by omega) hempty]
    exact le_rfl
  case frameEnd =>
    obtain ⟨_, hlive, _⟩ := hcaOk
    obtain ⟨hlive, _⟩ := hlive hallowed
    have hflush := closing_flushOut_length_le s.units
      (Dict.codeOf s.units.lzw.dict s.units.lzw.matched) hpack (hlzw hlive)
    rw [bodyOf, frameEnd_eq { units := s.units, offers := [] } hbits hacc hsb]
    simp only [workBound, List.nil_append, List.length_append]
    split <;> simp <;> omega
  case gifEnd => simp [bodyOf, gifEnd, workBound]

/-- The sink takes at most what a command offers. -/
theorem settle_out_length_le (op : BitVec 8) (a : Act) (s : State) :
    (settle op a s).out.length ≤ s.out.length + a.offers.length := by
  obtain ⟨taken, left, htaken, hcases⟩ := settle_cases op a s
  have hout : (settle op a s).out = s.out ++ taken := by
    obtain ⟨_, heq⟩ | heq | ⟨b, heq⟩ := hcases <;> rw [heq] <;> rfl
  rw [hout, List.length_append]
  exact Nat.add_le_add_left htaken.length_le _

/-- Settles O46: a command adds what the sink takes of the bytes its operation offers, or nothing. -/
theorem workPerCommandIsBounded : Obligations.WorkPerCommandIsBounded := by
  intro s t i ⟨_, _, hok⟩ hs hwf h
  obtain ⟨_, ⟨_, rfl⟩ | ⟨_, c, _, rfl⟩ | ⟨_, hc, rfl⟩⟩ := exec_next i s t h
  · exact Nat.le_add_right _ _
  · exact Nat.le_add_right _ _
  · have hbound := ran_offers_le i s hwf (hok hs) ((firstFailing_none_iff_allowed i s.units).mp hc)
    exact (settle_out_length_le _ _ s).trans (Nat.add_le_add_left hbound _)

end Sys2Proof.Machine
end

section
/-!
SUPPORT. A payload that joins SB part by part leaves as its full chunks and one last chunk; the bits of
codes in the bytes they make; with them the statements on sequences of commands of SB, BP and LZW
(40_subblock_writer.md section 3, 41_bit_packer.md section 3, vector V16).
-/

namespace Sys2Proof.Machine

/-! ## Runs of commands -/

theorem runs_append (is js : List Instr) (s u : State) :
    Runs (is ++ js) s u ↔ ∃ t, Runs is s t ∧ Runs js t u := by
  induction is generalizing s with
  | nil => simp [Runs]
  | cons i is ih =>
    simp only [List.cons_append, Runs, ih]
    constructor
    · rintro ⟨t, ht, v, hv, hu⟩
      exact ⟨v, ⟨t, ht, hv⟩, hu⟩
    · rintro ⟨v, ⟨t, ht, hv⟩, hu⟩
      exact ⟨t, ht, v, hv, hu⟩

theorem runs_singleton (i : Instr) (s t : State) : Runs [i] s t ↔ exec i s = .next t := by
  simp [Runs]

/-- With no answers listed the sink accepts to the end (log 3). -/
theorem sinkTakes_of_nil (s : State) (n : Nat) (h : s.sink = []) : SinkTakes s n :=
  sinkTakes_of_accepts s n (by simp [h])

/-- The state after commands that wrote the unit registers `u` and added `bytes` to `out`. -/
def State.wrote (s : State) (u : Units) (bytes : List Byte) : State :=
  { s with units := u, out := s.out ++ bytes }

@[simp] theorem wrote_units (s : State) (u : Units) (bytes : List Byte) :
    (s.wrote u bytes).units = u := rfl
@[simp] theorem wrote_out (s : State) (u : Units) (bytes : List Byte) :
    (s.wrote u bytes).out = s.out ++ bytes := rfl

theorem wrote_nil (s : State) : s.wrote s.units [] = s := by
  rw [State.wrote, List.append_nil]

theorem wrote_wrote (s : State) (u v : Units) (xs ys : List Byte) :
    (s.wrote u xs).wrote v ys = s.wrote v (xs ++ ys) := by
  simp only [State.wrote, List.append_assoc]

/-- A command runs to its end, for a sink that accepts to the end. -/
theorem exec_wrote (i : Instr) (s : State) (u : Units) (bytes : List Byte) (h : Ready s)
    (hsink : s.sink = []) (hc : firstFailing (checksOf i s.units) = none)
    (hr : ran i s = { units := u, offers := bytes }) : exec i s = .next (s.wrote u bytes) := by
  rw [exec_ran i s u bytes h hc hr (sinkTakes_of_nil s _ hsink), hsink, List.drop_nil, ← hsink]
  rfl

/-! ## Chunks of a payload -/

theorem chunkTail_length (payload : List Byte) :
    (chunkTail payload).length = payload.length % 255 := by
  rw [chunkTail, List.length_drop]
  omega

/-- Past its full chunks a payload is its tail, also when bytes follow. -/
theorem drop_fullChunks (payload bytes : List Byte) :
    (payload ++ bytes).drop (255 * (payload.length / 255)) = chunkTail payload ++ bytes :=
  List.drop_append_of_le_length (by omega)

/-- The full chunks of a payload are the first of a longer one. -/
theorem firstChunks_append (payload bytes : List Byte) :
    (List.range (payload.length / 255)).flatMap
        (fun j => 0xFF :: ((payload ++ bytes).drop (255 * j)).take 255) = fullChunks payload := by
  refine List.flatMap_congr fun j hj => ?_
  have hlt := List.mem_range.mp hj
  rw [List.drop_append_of_le_length (by omega), List.take_append_of_le_length]
  rw [List.length_drop]
  omega

/-- Bytes that join the tail of a payload: the full chunks and the tail are those of the longer
payload (R101). -/
theorem chunks_append (sb : Sb) (payload bytes : List Byte) (hsb : sb.buf = chunkTail payload)
    (hb : bytes.length ≤ 255) :
    fullChunks payload ++ chunkOut sb bytes = fullChunks (payload ++ bytes) ∧
    (chunkRest sb bytes).buf = chunkTail (payload ++ bytes) := by
  have htail := chunkTail_length payload
  have hfull := firstChunks_append payload bytes
  have hdrop := drop_fullChunks payload bytes
  rw [chunkOut, chunkRest, hsb]
  by_cases hroom : (chunkTail payload ++ bytes).length < 255
  · have hcount : (payload ++ bytes).length / 255 = payload.length / 255 := by
      rw [List.length_append] at hroom ⊢
      omega
    have hchunks : fullChunks (payload ++ bytes) = fullChunks payload := by
      rw [fullChunks, hcount, hfull]
    have hrest : chunkTail (payload ++ bytes) = chunkTail payload ++ bytes := by
      rw [chunkTail, hcount, hdrop]
    rw [if_pos hroom, if_pos hroom, List.append_nil, hchunks, hrest]
    exact ⟨rfl, rfl⟩
  · have hcount : (payload ++ bytes).length / 255 = payload.length / 255 + 1 := by
      rw [List.length_append] at hroom ⊢
      omega
    have hchunks : fullChunks (payload ++ bytes) =
        fullChunks payload ++ 0xFF :: (chunkTail payload ++ bytes).take 255 := by
      rw [fullChunks, hcount, List.range_succ, List.flatMap_append, hfull, List.flatMap_singleton,
        hdrop]
    have hrest : chunkTail (payload ++ bytes) = (chunkTail payload ++ bytes).drop 255 := by
      rw [chunkTail, hcount, Nat.mul_succ, ← List.drop_drop, hdrop]
    rw [if_neg hroom, if_neg hroom, hchunks, hrest]
    exact ⟨rfl, rfl⟩

/-- Since `out` was `base` and SB empty, `payload` has joined SB: its full chunks have left, its tail
waits (R101). -/
def HasJoined (base payload : List Byte) (s : State) : Prop :=
  s.units.sb.buf = chunkTail payload ∧ s.out = base ++ fullChunks payload

/-- Nothing has joined an empty SB. -/
theorem hasJoined_nil (s : State) (h : s.units.sb.buf = []) : HasJoined s.out [] s :=
  ⟨h, (List.append_nil _).symm⟩

theorem HasJoined.sbOk {base payload : List Byte} {s : State} (h : HasJoined base payload s) :
    s.units.sb.Ok := by
  have hlen := chunkTail_length payload
  show s.units.sb.buf.length ≤ 254
  rw [h.1]
  omega

/-- More bytes join SB. -/
theorem HasJoined.append {base payload bytes : List Byte} {s : State} {u : Units}
    (h : HasJoined base payload s) (hb : bytes.length ≤ 255)
    (hsb : u.sb = chunkRest s.units.sb bytes) :
    HasJoined base (payload ++ bytes) (s.wrote u (chunkOut s.units.sb bytes)) := by
  obtain ⟨hbuf, hbase⟩ := h
  obtain ⟨hfull, htail⟩ := chunks_append s.units.sb payload bytes hbuf hb
  refine ⟨?_, ?_⟩
  · rw [wrote_units, hsb, htail]
  · rw [wrote_out, hbase, List.append_assoc, hfull]

/-- A flush after more bytes completes the chunks of the payload. -/
theorem HasJoined.flush {base payload bytes : List Byte} {s : State} (h : HasJoined base payload s)
    (hb : bytes.length ≤ 255) :
    s.out ++ (chunkOut s.units.sb bytes ++ lastChunk (chunkRest s.units.sb bytes)) =
      base ++ chunked (payload ++ bytes) := by
  obtain ⟨hbuf, hbase⟩ := h
  obtain ⟨hfull, htail⟩ := chunks_append s.units.sb payload bytes hbuf hb
  rw [hbase, lastChunk, htail, List.append_assoc, ← List.append_assoc (fullChunks payload), hfull]
  rfl

/-! ## Pushes and a flush -/

/-- Bytes pushed one by one join SB. -/
theorem runs_sbPush (bytes base payload : List Byte) (s : State) (hs : Ready s)
    (haccess : UnitAccess s.units) (hsink : s.sink = []) (h : HasJoined base payload s) :
    ∃ sb out, Runs (bytes.map .sbPush) s (s.wrote { s.units with sb := sb } out) ∧
      HasJoined base (payload ++ bytes) (s.wrote { s.units with sb := sb } out) := by
  induction bytes generalizing payload s with
  | nil => exact ⟨s.units.sb, [], (wrote_nil s).symm, by rwa [List.append_nil, wrote_nil]⟩
  | cons b bytes ih =>
    have hpush := exec_wrote (.sbPush b) s _ _ hs hsink (unitAccess_passes s.units haccess)
      (sbPush_eq b { units := s.units, offers := [] } h.sbOk)
    have hjoin := h.append (bytes := [b]) (u := { s.units with sb := chunkRest s.units.sb [b] })
      (by simp) rfl
    obtain ⟨sb, out, hruns, hlater⟩ := ih _ (s.wrote { s.units with sb := chunkRest s.units.sb [b] }
      (chunkOut s.units.sb [b])) hs haccess hsink hjoin
    rw [wrote_wrote] at hruns hlater
    rw [List.append_assoc] at hlater
    exact ⟨sb, _, ⟨_, hpush, hruns⟩, hlater⟩

/-- Settles O21: the payload joins the empty SB byte by byte, and the flush writes its last chunk. -/
theorem pushesThenFlushWriteTheChunks : Obligations.PushesThenFlushWriteTheChunks := by
  intro s payload hs haccess hempty hsink
  obtain ⟨sb, out, hruns, hjoin⟩ :=
    runs_sbPush payload s.out [] s hs haccess hsink (hasJoined_nil s hempty)
  have hflush := exec_wrote .sbFlush (s.wrote { s.units with sb := sb } out) _ _ hs hsink
    (unitAccess_passes s.units haccess) (sbFlush_eq _)
  have hout := hjoin.flush (bytes := []) (by simp)
  rw [chunkOut_nil _ hjoin.sbOk, chunkRest_nil _ hjoin.sbOk, List.append_nil] at hout
  refine ⟨_, (runs_append _ _ _ _).mpr ⟨_, hruns, (runs_singleton _ _ _).mpr hflush⟩, ?_⟩
  have hlen := congrArg List.length hjoin.1
  rw [chunkTail_length] at hlen
  rw [State.wrote]
  simp only [List.nil_append] at hout ⊢
  rw [hout, hlen]
  rfl

/-! ## Codes written one by one -/

/-- The BP registers after codes have been written. -/
def bpAfter (bp : Bp) (codes : List (Nat × Nat)) : Bp :=
  let h := joinCodes (bp.acc.toNat, bp.nbits.toNat) codes
  { bp with acc := BitVec.ofNat 32 (restBits h.1 h.2), nbits := BitVec.ofNat 5 (h.2 % 8) }

section
variable (bp : Bp) (hacc : bp.acc.toNat < 2 ^ bp.nbits.toNat) (codes codes' : List (Nat × Nat))
include hacc

/-- The bits held after codes are those left over from whole bytes. -/
theorem bpAfter_toNat :
    (bpAfter bp codes).acc.toNat =
      restBits (joinCodes (bp.acc.toNat, bp.nbits.toNat) codes).1
        (joinCodes (bp.acc.toNat, bp.nbits.toNat) codes).2 ∧
    (bpAfter bp codes).nbits.toNat = (joinCodes (bp.acc.toNat, bp.nbits.toNat) codes).2 % 8 := by
  have hrest := restBits_lt _ _ (joinCodes_lt bp.acc.toNat bp.nbits.toNat codes hacc)
  have hcount : (joinCodes (bp.acc.toNat, bp.nbits.toNat) codes).2 % 8 < 8 :=
    Nat.mod_lt _ (by omega)
  have hpow : 2 ^ ((joinCodes (bp.acc.toNat, bp.nbits.toNat) codes).2 % 8) ≤ 2 ^ 8 :=
    Nat.pow_le_pow_right (by omega) (by omega)
  simp only [bpAfter, BitVec.toNat_ofNat]
  exact ⟨Nat.mod_eq_of_lt (by omega), Nat.mod_eq_of_lt (by omega)⟩

/-- Codes written in two parts leave BP as codes written as one, and the same bytes leave it. -/
theorem bpAfter_append :
    bpAfter (bpAfter bp codes) codes' = bpAfter bp (codes ++ codes') ∧
    codeBytes bp codes ++ codeBytes (bpAfter bp codes) codes' = codeBytes bp (codes ++ codes') := by
  obtain ⟨hacc', hcount⟩ := bpAfter_toNat bp hacc codes
  obtain ⟨hbytes, hrest, hmod⟩ :=
    join_in_parts (joinCodes (bp.acc.toNat, bp.nbits.toNat) codes).1
      (joinCodes (bp.acc.toNat, bp.nbits.toNat) codes).2 codes'
  rw [← hacc', ← hcount, ← joinCodes_append] at hbytes hrest hmod
  exact ⟨congrArg₂ (fun rest count =>
    { bp with acc := BitVec.ofNat 32 rest, nbits := BitVec.ofNat 5 count }) hrest.symm hmod.symm,
    hbytes.symm⟩

/-- The bytes of codes and a flush are those of the codes and those of the flush after them. -/
theorem finalBytes_eq_append :
    finalBytes bp codes = codeBytes bp codes ++ finalBytes (bpAfter bp codes) [] :=
  finalBytes_split { (default : Units) with bp := bp } codes hacc

end

/-- Without codes no byte leaves BP, and its registers stay. -/
theorem bpAfter_nil (bp : Bp) (h : bp.Ok) : codeBytes bp [] = [] ∧ bpAfter bp [] = bp := by
  obtain ⟨hbits, _, _⟩ := h
  have hzero : bp.nbits.toNat / 8 = 0 := by omega
  have hmod : bp.nbits.toNat % 8 = bp.nbits.toNat := by omega
  refine ⟨?_, ?_⟩
  · simp [codeBytes, joinCodes, wholeBytes, hzero]
  · simp [bpAfter, joinCodes, restBits, hzero, hmod]

/-- Codes in an open session keep the held bits in range. -/
theorem bpAfter_ok (bp : Bp) (codes : List (Nat × Nat)) (h : bp.Ok) (hopen : bp.state = .opened) :
    (bpAfter bp codes).Ok := by
  obtain ⟨_, hacc, _⟩ := h
  obtain ⟨hbits, hheld⟩ := codesRest_bits { (default : Units) with bp := bp } codes hacc
  exact ⟨hbits, hheld, fun hclosed => absurd hopen hclosed⟩

/-- The code that a BP_INSERT with these operands writes. -/
def insertCode (p : BitVec 5 × Half) : Nat × Nat := (p.1.toNat, p.2.toNat)

/-- Codes inserted one by one join SB as the bytes of the codes written as one. -/
theorem runs_bpInsert (ins : List (BitVec 5 × Half)) (base payload : List Byte) (s : State)
    (hs : Ready s) (haccess : UnitAccess s.units) (hsink : s.sink = [])
    (hopen : s.units.bp.state = .opened) (hbp : s.units.bp.Ok)
    (hlegal : ∀ p ∈ ins, 1 ≤ p.1.toNat ∧ p.1.toNat ≤ 16) (h : HasJoined base payload s) :
    ∃ t, Runs (ins.map fun p => .bpInsert p.1 p.2) s t ∧ Ready t ∧ t.sink = [] ∧
      t.units.ca = s.units.ca ∧ t.units.bp = bpAfter s.units.bp (ins.map insertCode) ∧
      HasJoined base (payload ++ codeBytes s.units.bp (ins.map insertCode)) t := by
  induction ins generalizing payload s with
  | nil =>
    obtain ⟨hbytes, hafter⟩ := bpAfter_nil s.units.bp hbp
    refine ⟨s, rfl, hs, hsink, rfl, hafter.symm, ?_⟩
    rwa [List.map_nil, hbytes, List.append_nil]
  | cons p ins ih =>
    obtain ⟨h1, h16⟩ := hlegal p List.mem_cons_self
    have ⟨hbits, hheld, _⟩ := hbp
    obtain ⟨hafter, hbytes⟩ := bpAfter_append s.units.bp hheld [insertCode p] (ins.map insertCode)
    have hinsert := exec_wrote (.bpInsert p.1 p.2) s (codesRest s.units [insertCode p])
      (codesOut s.units [insertCode p]) hs hsink
      (bpInsert_passes s.units p.1 p.2 haccess hopen h1 h16)
      (bpInsert_eq p.1.toNat p.2 { units := s.units, offers := [] } h16 hbits hheld h.sbOk)
    have hjoin := h.append (bytes := codeBytes s.units.bp [insertCode p])
      (u := codesRest s.units [insertCode p])
      (by rw [codeBytes_length]; simp [insertCode]; omega) rfl
    obtain ⟨t, hruns, ht, htsink, hca, hbp', hlater⟩ := ih _
      (s.wrote (codesRest s.units [insertCode p]) (codesOut s.units [insertCode p])) hs
      haccess hsink hopen (bpAfter_ok _ _ hbp hopen)
      (fun q hq => hlegal q (List.mem_cons_of_mem _ hq)) hjoin
    refine ⟨t, ⟨_, hinsert, hruns⟩, ht, htsink, hca, hbp'.trans hafter, ?_⟩
    rw [List.append_assoc] at hlater
    exact hbytes ▸ hlater

/-! ## The bits of a payload -/

theorem bitsLow_add (m n v : Nat) : bitsLow (m + n) v = bitsLow m v ++ bitsLow n (v / 2 ^ m) := by
  simp only [bitsLow, List.range_add, List.map_append, List.map_map]
  congr 1
  refine List.map_congr_left fun j _ => ?_
  rw [Function.comp, Nat.testBit_div_two_pow, Nat.add_comm]

/-- The low bits are those of the remainder. -/
theorem bitsLow_mod (n v : Nat) : bitsLow n (v % 2 ^ n) = bitsLow n v := by
  refine List.map_congr_left fun j hj => ?_
  rw [Nat.testBit_mod_two_pow, decide_eq_true (List.mem_range.mp hj), Bool.true_and]

theorem bitsLow_zero (n : Nat) : bitsLow n 0 = List.replicate n false := by
  rw [bitsLow, List.map_congr_left fun j _ => Nat.zero_testBit j, List.map_const',
    List.length_range]

/-- The bits of a number above `n` bits are those bits, then its own. -/
theorem bitsLow_join (n w a v : Nat) (h : a < 2 ^ n) :
    bitsLow (n + w) (a + v % 2 ^ w * 2 ^ n) = bitsLow n a ++ bitsLow w v := by
  have hlow : (a + v % 2 ^ w * 2 ^ n) % 2 ^ n = a := by
    rw [Nat.add_mul_mod_self_right, Nat.mod_eq_of_lt h]
  have hhigh : (a + v % 2 ^ w * 2 ^ n) / 2 ^ n = v % 2 ^ w := by
    rw [Nat.add_mul_div_right _ _ (by positivity), Nat.div_eq_of_lt h, Nat.zero_add]
  rw [bitsLow_add, hhigh, bitsLow_mod, ← bitsLow_mod n, hlow]

/-- The bits held after codes are the bits held before and the low bits of the values, in order. -/
theorem bitsLow_joinCodes (a n : Nat) (codes : List (Nat × Nat)) (h : a < 2 ^ n) :
    bitsLow (joinCodes (a, n) codes).2 (joinCodes (a, n) codes).1 =
      bitsLow n a ++ codes.flatMap fun c => bitsLow c.1 c.2 := by
  induction codes generalizing a n with
  | nil => simp [joinCodes]
  | cons c codes ih =>
    have hlt := joinCodes_lt a n [c] h
    rw [List.flatMap_cons, ← List.append_assoc, ← bitsLow_join n c.1 a c.2 h]
    exact ih _ _ hlt

/-- The bits of whole bytes, oldest first. -/
theorem wholeBytes_bits (a n : Nat) :
    (wholeBytes a n).flatMap (fun b => bitsLow 8 b.toNat) = bitsLow (8 * (n / 8)) a := by
  rw [wholeBytes]
  induction n / 8 with
  | zero => rfl
  | succ m ih =>
    rw [List.range_succ, List.map_append, List.flatMap_append, ih, Nat.mul_succ, bitsLow_add,
      List.map_singleton, List.flatMap_singleton, BitVec.toNat_ofNat, bitsLow_mod]

/-- The bits of the bytes of a flush: those of the codes, then zeros up to a byte (R121). -/
theorem finalBytes_bits (bp : Bp) (codes : List (Nat × Nat))
    (h : bp.acc.toNat < 2 ^ bp.nbits.toNat) :
    ∃ pad < 8, (finalBytes bp codes).flatMap (fun b => bitsLow 8 b.toNat) =
      bitsLow bp.nbits.toNat bp.acc.toNat ++ codes.flatMap (fun c => bitsLow c.1 c.2) ++
        List.replicate pad false := by
  have hlt := joinCodes_lt bp.acc.toNat bp.nbits.toNat codes h
  rw [← bitsLow_joinCodes _ _ codes h, finalBytes]
  generalize joinCodes (bp.acc.toNat, bp.nbits.toNat) codes = held at hlt ⊢
  obtain ⟨a, n⟩ := held
  rw [List.flatMap_append, wholeBytes_bits]
  by_cases hwhole : n % 8 = 0
  · refine ⟨0, by omega, ?_⟩
    have hn : 8 * (n / 8) = n := by omega
    simp [hwhole, hn]
  · refine ⟨8 - n % 8, by omega, ?_⟩
    have hn : 8 * (n / 8) + 8 = n + (8 - n % 8) := by omega
    rw [if_neg hwhole, List.flatMap_singleton, BitVec.toNat_ofNat, bitsLow_mod, restBits,
      ← bitsLow_add, hn, bitsLow_add, Nat.div_eq_of_lt hlt, bitsLow_zero]

/-- A flush of BP after codes completes the chunks of the payload. -/
theorem HasJoined.flushOut {base payload : List Byte} {s : State} (h : HasJoined base payload s)
    (codes : List (Nat × Nat)) (hb : (finalBytes s.units.bp codes).length ≤ 255) :
    s.out ++ flushOut s.units codes = base ++ chunked (payload ++ finalBytes s.units.bp codes) :=
  h.flush hb

/-- Settles O25: the codes join SB as their whole bytes, the flush adds the padded byte and the last
chunk, and the bits of all these bytes are those of the codes. -/
theorem insertedBitsAppearInOrder : Obligations.InsertedBitsAppearInOrder := by
  intro s ins hs haccess hbp hempty hsink hlegal
  have hok : s.units.bp.Ok := by rw [hbp]; exact freshBp_ok _
  have hopen : s.units.bp.state = .opened := by rw [hbp]
  have ⟨_, hacc, _⟩ := hok
  obtain ⟨t, hruns, ht, htsink, hca, hafter, hjoin⟩ :=
    runs_bpInsert ins s.out [] s hs haccess hsink hopen hok hlegal (hasJoined_nil s hempty)
  obtain ⟨hbits, hheld, _⟩ : t.units.bp.Ok := hafter ▸ bpAfter_ok _ _ hok hopen
  have hflush := exec_wrote .bpFlush t _ _ ht htsink
    (bpFlush_passes _ (by rwa [UnitAccess, hca]) (by rw [hafter]; exact hopen))
    (bpFlush_eq { units := t.units, offers := [] } hbits hheld hjoin.sbOk)
  have hlen := finalBytes_length t.units.bp []
  obtain ⟨pad, hpad, hpayload⟩ := finalBytes_bits s.units.bp (ins.map insertCode) hacc
  refine ⟨_, finalBytes s.units.bp (ins.map insertCode), pad,
    (runs_append _ _ _ _).mpr ⟨t, hruns, (runs_singleton _ _ _).mpr hflush⟩, ?_, hpad, ?_⟩
  · rw [finalBytes_eq_append s.units.bp hacc, ← hafter]
    exact hjoin.flushOut [] (by simp at hlen; omega)
  · rw [hpayload, hbp, List.flatMap_map]
    rfl

/-! ## A session without symbols -/

/-- The BP registers of a fresh session (R122). -/
def freshBp : Bp := { acc := 0, nbits := 0, state := .opened }

/-- The payload of a session without symbols: the clear code and the EOI code, padded. -/
def emptySession (n : Nat) : List Byte :=
  codeBytes freshBp [(n + 1, 2 ^ n)] ++
    finalBytes (bpAfter freshBp [(n + 1, 2 ^ n)]) [(n + 1, 2 ^ n + 1)]

/-- LZW_INIT joins its clear code and leaves a session without symbols (R142). -/
theorem exec_lzwInit_wrote (s : State) (n : BitVec 4) (base payload : List Byte) (hs : Ready s)
    (haccess : UnitAccess s.units) (hidle : s.units.lzw.state ≠ .matching) (h2 : 2 ≤ n.toNat)
    (h8 : n.toNat ≤ 8) (hopen : s.units.bp.state = .opened) (hbp : s.units.bp.Ok)
    (hsink : s.sink = []) (h : HasJoined base payload s) :
    ∃ t, exec (.lzwInit n) s = .next t ∧ Ready t ∧ t.sink = [] ∧ t.units.ca = s.units.ca ∧
      t.units.bp = bpAfter s.units.bp [(n.toNat + 1, 2 ^ n.toNat)] ∧
      t.units.lzw = { state := .matching, s := n, width := firstWidth n, next := firstCode n,
                      dict := Dict.seed n, matched := [] } ∧
      HasJoined base (payload ++ codeBytes s.units.bp [(n.toNat + 1, 2 ^ n.toNat)]) t := by
  have ⟨hbits, hacc, _⟩ := hbp
  have hexec := exec_wrote (.lzwInit n) s _ _ hs hsink
    (lzwInit_passes s.units n haccess hidle h2 h8 hopen)
    (lzwInit_eq { units := s.units, offers := [] } hbits hacc h.sbOk n h8)
  exact ⟨_, hexec, hs, hsink, rfl, rfl, rfl,
    h.append (by rw [codeBytes_length]; simp; omega) rfl⟩

/-- LZW_INIT and LZW_FLUSH over a fresh BP session and an empty SB write the chunks of the clear code
and the EOI code. -/
theorem runs_emptySession (s : State) (n : BitVec 4) (hs : Ready s) (haccess : UnitAccess s.units)
    (hidle : s.units.lzw.state ≠ .matching) (h2 : 2 ≤ n.toNat) (h8 : n.toNat ≤ 8)
    (hbp : s.units.bp = freshBp) (hempty : s.units.sb.buf = []) (hsink : s.sink = []) :
    ∃ u, Runs [.lzwInit n, .lzwFlush] s u ∧ u.out = s.out ++ chunked (emptySession n.toNat) := by
  have hok : s.units.bp.Ok := by rw [hbp]; exact freshBp_ok _
  have hopen : s.units.bp.state = .opened := by rw [hbp]; rfl
  obtain ⟨t, hinit, ht, htsink, hca, hafter, hlzw, hjoin⟩ :=
    exec_lzwInit_wrote s n s.out [] hs haccess hidle h2 h8 hopen hok hsink (hasJoined_nil s hempty)
  obtain ⟨hbits, hheld, _⟩ : t.units.bp.Ok := hafter ▸ bpAfter_ok _ _ hok hopen
  have hcodes : closingCodes t.units.lzw (Dict.codeOf t.units.lzw.dict t.units.lzw.matched) =
      [(n.toNat + 1, 2 ^ n.toNat + 1)] := by
    have hw : (firstWidth n).toNat = n.toNat + 1 := by
      rw [firstWidth, BitVec.toNat_ofNat]
      omega
    rw [closingCodes, hlzw, if_pos rfl, List.nil_append, hw]
  have hrun := lzwFlush_eq { units := t.units, offers := [] } hbits hheld hjoin.sbOk
  rw [hcodes] at hrun
  have hflush := exec_wrote .lzwFlush t _ _ ht htsink
    (lzwFlush_passes _ (by rwa [UnitAccess, hca]) (by rw [hlzw]) (by rw [hafter]; exact hopen)) hrun
  have hlen := finalBytes_length t.units.bp [(n.toNat + 1, 2 ^ n.toNat + 1)]
  refine ⟨_, ⟨t, hinit, (runs_singleton _ _ _).mpr hflush⟩, ?_⟩
  rw [emptySession, ← hbp, ← hafter]
  exact hjoin.flushOut _ (by simp at hlen; omega)

/-- Settles O31: the two commands write the chunks of the clear code and the EOI code, which for each
of the seven minimum code sizes are the bytes the vector prints. -/
theorem emptySessionWritesClearAndEoi : Obligations.EmptySessionWritesClearAndEoi := by
  intro s p hp hs haccess hidle hbp hempty hsink
  have hvector : (2 ≤ p.1.toNat ∧ p.1.toNat ≤ 8) ∧ chunked (emptySession p.1.toNat) = p.2 := by
    revert p
    decide
  obtain ⟨⟨h2, h8⟩, hbytes⟩ := hvector
  rw [← hbytes]
  exact runs_emptySession s p.1 hs haccess hidle h2 h8 hbp hempty hsink

end Sys2Proof.Machine
end

section
/-!
SUPPORT. A frame command by command, each from a state that keeps the invariant to another: the header,
the palette, the opening of the image data, the pixels and the end; with them the statement on a whole
frame (R180 to R195).
-/

namespace Sys2Proof.Machine

/-! ## One command, with the invariant kept -/

/-- The next word is run, the invariant holds, and the sink accepts to the end. -/
structure Proceeds (s : State) : Prop where
  ready : Ready s
  inv : s.Inv
  sink : s.sink = []

theorem Proceeds.ok {s : State} (h : Proceeds s) : s.units.Ok := h.inv.units_ok h.ready

/-- A well-formed command that has what it needs runs to its end, and the machine proceeds. -/
theorem Proceeds.exec {s : State} (h : Proceeds s) (i : Instr) (u : Units) (bytes : List Byte)
    (hwf : i.wellFormed = true) (hallowed : Allowed i s.units)
    (hr : ran i s = { units := u, offers := bytes }) :
    exec i s = .next (s.wrote u bytes) ∧ Proceeds (s.wrote u bytes) := by
  have hexec := exec_wrote i s u bytes h.ready h.sink
    ((firstFailing_none_iff_allowed i s.units).mpr hallowed) hr
  exact ⟨hexec, h.ready, exec_inv i s _ hwf h.inv hexec, h.sink⟩

/-! ## The header and the palette -/

/-- The bytes of FRAME_BEGIN (R188, R189). -/
def frameHeader (width height delay : Half) (d : Nat) : List Byte :=
  let lo := fun v : Half => BitVec.ofNat 8 (v.toNat % 256)
  let hi := fun v : Half => BitVec.ofNat 8 (v.toNat / 256)
  [0x21, 0xF9, 0x04, 0x00, lo delay, hi delay, 0x00, 0x00,
   0x2C, 0x00, 0x00, 0x00, 0x00, lo width, hi width, lo height, hi height,
   BitVec.ofNat 8 (0x80 + (d - 1))]

/-- FRAME_BEGIN writes the header and opens a palette of `n` entries and depth `d` (R187). -/
theorem exec_frameBegin_wrote (s : State) (width height delay : Half) (n d : Nat) (h : Proceeds s)
    (hca : s.units.ca.state = .stream) (hw : width ≠ 0) (hh : height ≠ 0) (hn : 1 ≤ n)
    (h256 : n ≤ 256) (h1 : 1 ≤ d) (hd : n ≤ 2 ^ d) (hleast : d = 1 ∨ 2 ^ (d - 1) < n) :
    ∃ t, exec (.frameBegin width height delay (BitVec.ofNat 9 n)) s = .next t ∧ Proceeds t ∧
      t.out = s.out ++ frameHeader width height delay d ∧ t.units.ca.state = .palette ∧
      t.units.ca.palcount = 0 ∧ t.units.ca.ncolors.toNat = n ∧ t.units.ca.depth.toNat = d := by
  have hncolors : (BitVec.ofNat 9 n).toNat = n := by
    rw [BitVec.toNat_ofNat]
    omega
  have hdepth : (BitVec.ofNat 4 d).toNat = d := by
    have h8 := depth_le_eight n d h256 hleast
    rw [BitVec.toNat_ofNat]
    omega
  have hwf : (Instr.frameBegin width height delay (BitVec.ofNat 9 n)).wellFormed = true :=
    decide_eq_true (by rw [hncolors]; exact ⟨hn, h256⟩)
  have hexec := frameBeginWritesTheFrameHeader s width height delay (BitVec.ofNat 9 n) d h.ready hca
    hw hh (by rwa [hncolors]) (by rwa [hncolors]) h1 (by rwa [hncolors]) (by rwa [hncolors])
    (sinkTakes_of_nil s 18 h.sink)
  exact ⟨_, hexec, ⟨h.ready, exec_inv _ s _ hwf h.inv hexec, by rw [h.sink]; rfl⟩, rfl, rfl, rfl,
    hncolors, hdepth⟩

/-- The bytes of palette entries: red, green, blue of each (R63). -/
def paletteBytes (palette : List (Byte × Byte × Byte)) : List Byte :=
  palette.flatMap fun p => [p.1, p.2.1, p.2.2]

/-- The command for a palette entry. -/
def palOf (p : Byte × Byte × Byte) : Instr := .pal p.1 p.2.1 p.2.2

/-- Entries before the last one are written and counted (R190). -/
theorem runs_pal (palette : List (Byte × Byte × Byte)) (s : State) (h : Proceeds s)
    (hca : s.units.ca.state = .palette)
    (hroom : s.units.ca.palcount.toNat + palette.length < s.units.ca.ncolors.toNat) :
    ∃ t, Runs (palette.map palOf) s t ∧ Proceeds t ∧ t.out = s.out ++ paletteBytes palette ∧
      t.units.ca.state = .palette ∧ t.units.ca.ncolors = s.units.ca.ncolors ∧
      t.units.ca.depth = s.units.ca.depth ∧
      t.units.ca.palcount.toNat = s.units.ca.palcount.toNat + palette.length := by
  induction palette generalizing s with
  | nil => exact ⟨s, rfl, h, (List.append_nil _).symm, hca, rfl, rfl, rfl⟩
  | cons p palette ih =>
    rw [List.length_cons] at hroom
    have hcount : (BitVec.ofNat 9 (s.units.ca.palcount.toNat + 1)).toNat =
        s.units.ca.palcount.toNat + 1 := by
      have hn := s.units.ca.ncolors.isLt
      rw [BitVec.toNat_ofNat]
      omega
    obtain ⟨hexec, hnext⟩ := h.exec (palOf p) _ _ rfl hca
      (palEntry_of_more p.1 p.2.1 p.2.2 { units := s.units, offers := [] } (by dsimp only; omega))
    obtain ⟨t, hruns, ht, hout, hstate, hn, hd, hc⟩ := ih (s.wrote _ _) hnext hca
      (by simp only [wrote_units, hcount]; omega)
    refine ⟨t, ⟨_, hexec, hruns⟩, ht, ?_, hstate, hn, hd, ?_⟩
    · rw [hout]
      simp [paletteBytes]
    · rw [hc]
      simp only [wrote_units, hcount, List.length_cons]
      omega

theorem paletteBytes_append (xs ys : List (Byte × Byte × Byte)) :
    paletteBytes (xs ++ ys) = paletteBytes xs ++ paletteBytes ys := List.flatMap_append

theorem paletteBytes_replicate (n : Nat) (p : Byte × Byte × Byte) :
    paletteBytes (List.replicate n p) = (List.replicate n [p.1, p.2.1, p.2.2]).flatten := by
  rw [paletteBytes, List.flatMap_def, List.map_replicate]

/-- The whole palette: the entries, and the last one repeated to fill the table (R190, R191). -/
theorem runs_palette (palette : List (Byte × Byte × Byte)) (last : Byte × Byte × Byte) (s : State)
    (d : Nat) (h : Proceeds s) (hca : s.units.ca.state = .palette)
    (hcount : s.units.ca.palcount = 0) (hn : s.units.ca.ncolors.toNat = palette.length + 1)
    (hdepth : s.units.ca.depth.toNat = d) (hd : palette.length + 1 ≤ 2 ^ d) :
    ∃ t, Runs ((palette ++ [last]).map palOf) s t ∧ Proceeds t ∧
      t.out = s.out ++ paletteBytes (palette ++ List.replicate (2 ^ d - palette.length) last) ∧
      t.units.ca.state = .lctDone ∧ t.units.ca.depth.toNat = d := by
  have hzero : s.units.ca.palcount.toNat = 0 := by rw [hcount]; rfl
  obtain ⟨t, hruns, ht, hout, hstate, hn', hd', hc⟩ := runs_pal palette s h hca (by omega)
  obtain ⟨hexec, hnext⟩ := ht.exec (palOf last) _ _ rfl hstate
    (palEntry_of_last last.1 last.2.1 last.2.2 { units := t.units, offers := [] }
      (by dsimp only; rw [hn', hn, hc, hzero, Nat.zero_add]))
  refine ⟨_, ?_, hnext, ?_, rfl, by rw [← hdepth, ← hd']; rfl⟩
  · rw [List.map_append]
    exact (runs_append _ _ _ _).mpr ⟨t, hruns, (runs_singleton _ _ _).mpr hexec⟩
  · have hcopies : 1 + (2 ^ d - (palette.length + 1)) = 2 ^ d - palette.length := by omega
    rw [wrote_out, hout, paletteBytes_append, paletteBytes_replicate]
    simp only [hn', hn, hd', hdepth, hcopies, List.nil_append, List.append_assoc]

/-! ## The image data -/

/-- The whole bytes that the clear code makes in a fresh BP session, for minimum code size `n`. -/
def clearBytes (n : Nat) : List Byte := codeBytes freshBp [(n + 1, 2 ^ n)]

theorem clearBytes_length (n : Nat) (h : n ≤ 8) : (clearBytes n).length ≤ 255 := by
  rw [clearBytes, codeBytes_length]
  simp [freshBp]
  omega

/-- What DATA_BEGIN writes: the minimum code size itself, and the clear code through SB (R192). -/
theorem dataBegin_chunk (a : Act) (hs : a.units.sb.Ok) (hd : a.units.ca.depth.toNat ≤ 8) :
    (dataBegin a).units.sb = chunkRest a.units.sb (clearBytes (max 2 a.units.ca.depth.toNat)) ∧
    (dataBegin a).offers = a.offers ++ ([BitVec.ofNat 8 (max 2 a.units.ca.depth.toNat)] ++
      chunkOut a.units.sb (clearBytes (max 2 a.units.ca.depth.toNat))) := by
  rw [dataBegin_eq a hs hd]
  exact ⟨rfl, rfl⟩

/-- DATA_BEGIN writes the minimum code size, and its clear code joins SB (R192). -/
theorem exec_dataBegin_wrote (s : State) (d : Nat) (h : Proceeds s)
    (hca : s.units.ca.state = .lctDone) (hdepth : s.units.ca.depth.toNat = d) :
    ∃ t payload, exec .dataBegin s = .next t ∧ Proceeds t ∧ t.units.ca.state = .pixels ∧
      t.units.ca.depth.toNat = d ∧ HasJoined (s.out ++ [BitVec.ofNat 8 (max 2 d)]) payload t := by
  obtain ⟨hsb, _, _, hcaOk⟩ := h.ok
  have h8 := depth_le_of_caOk hcaOk (.inr (.inl hca))
  obtain ⟨hidle, _⟩ := hcaOk
  obtain ⟨_, _, hempty⟩ := hidle (.inr (.inr hca))
  obtain ⟨hrest, hoffers⟩ := dataBegin_chunk { units := s.units, offers := [] } hsb h8
  rw [hdepth] at h8 hrest hoffers
  have hran : ran .dataBegin s =
      { units := (dataBegin { units := s.units, offers := [] }).units,
        offers := [BitVec.ofNat 8 (max 2 d)] ++ chunkOut s.units.sb (clearBytes (max 2 d)) } := by
    rw [List.nil_append] at hoffers
    rw [← hoffers]
    rfl
  obtain ⟨hexec, hnext⟩ := h.exec .dataBegin _ _ rfl hca hran
  have hjoin := (hasJoined_nil (s.wrote s.units [BitVec.ofNat 8 (max 2 d)]) hempty).append
    (clearBytes_length _ (by omega)) hrest
  rw [wrote_units, wrote_wrote] at hjoin
  exact ⟨_, _, hexec, hnext, by simp, by simpa using hdepth, hjoin⟩

/-- Every pixel joins SB as a few bytes more (R193). -/
theorem runs_pixels (indices base payload : List Byte) (s : State) (h : Proceeds s)
    (hca : s.units.ca.state = .pixels)
    (hk : ∀ k ∈ indices, k.toNat < 2 ^ max 2 s.units.ca.depth.toNat)
    (hjoin : HasJoined base payload s) :
    ∃ t payload', Runs (indices.map .pixel) s t ∧ Proceeds t ∧ t.units.ca.state = .pixels ∧
      HasJoined base payload' t := by
  induction indices generalizing payload s with
  | nil => exact ⟨s, payload, rfl, h, hca, hjoin⟩
  | cons k indices ih =>
    obtain ⟨_, _, _, _, hlive, _⟩ := h.ok
    obtain ⟨_, _, hs⟩ := hlive hca
    obtain ⟨bytes, hb, hsb, hoffers⟩ :=
      lzwEncode_chunk k { units := s.units, offers := [] } h.ok.packOk
    have hran : ran (.pixel k) s =
        { units := (lzwEncode k { units := s.units, offers := [] }).units,
          offers := chunkOut s.units.sb bytes } := by
      rw [List.nil_append] at hoffers
      rw [← hoffers]
      rfl
    obtain ⟨hexec, hnext⟩ := h.exec (.pixel k) _ _ rfl
      ⟨hca, by rw [hs]; exact hk k List.mem_cons_self⟩ hran
    obtain ⟨t, payload', hruns, hlater⟩ := ih _ _ hnext (by simpa using hca)
      (fun j hj => by simpa using hk j (List.mem_cons_of_mem _ hj)) (hjoin.append hb hsb)
    exact ⟨t, payload', ⟨_, hexec, hruns⟩, hlater⟩

/-- The chunks of a payload, its last one, and one byte 0x00 unless that was the last chunk (R195). -/
theorem chunked_terminated (payload : List Byte) :
    chunked payload ++
      (if BitVec.ofNat 8 (chunkTail payload).length = 0 then [] else [0x00]) =
      dataBlock payload := by
  have hlen := chunkTail_length payload
  by_cases hempty : chunkTail payload = []
  · simp [chunked, dataBlock, hempty]
  · have hpos := List.length_pos_of_ne_nil hempty
    have hne : BitVec.ofNat 8 (chunkTail payload).length ≠ 0 := by
      intro heq
      have hzero := congrArg BitVec.toNat heq
      simp at hzero
      omega
    rw [if_neg hne, chunked, dataBlock, if_neg hempty]

/-- A flush after a code leaves some byte. -/
theorem finalBytes_ne_nil (bp : Bp) (codes : List (Nat × Nat)) (h : 0 < (codes.map Prod.fst).sum) :
    finalBytes bp codes ≠ [] := by
  intro hnil
  have hcount := joinCodes_count bp.acc.toNat bp.nbits.toNat codes
  obtain ⟨hwhole, hpad⟩ := List.append_eq_nil_iff.mp hnil
  have hlen := congrArg List.length hwhole
  rw [wholeBytes_length, List.length_nil] at hlen
  have hmod : (joinCodes (bp.acc.toNat, bp.nbits.toNat) codes).2 % 8 = 0 := by
    by_contra hne
    rw [if_neg hne] at hpad
    cases hpad
  omega

/-- FRAME_END completes the image data: what has joined SB, the closing codes, the terminator (R194,
R195). -/
theorem exec_frameEnd_wrote (base payload : List Byte) (s : State) (h : Proceeds s)
    (hca : s.units.ca.state = .pixels) (hjoin : HasJoined base payload s) :
    ∃ t payload', exec .frameEnd s = .next t ∧ Proceeds t ∧ t.units.ca.state = .stream ∧
      payload' ≠ [] ∧ t.out = base ++ dataBlock payload' := by
  obtain ⟨hsb, ⟨hbits, hacc, _⟩, hlzw, _, hlive, _⟩ := h.ok
  obtain ⟨hlive, _⟩ := hlive hca
  obtain ⟨hexec, hnext⟩ := h.exec .frameEnd _ _ rfl hca
    (frameEnd_eq { units := s.units, offers := [] } hbits hacc hsb)
  obtain ⟨hpos, hle⟩ := closingCodes_widths s.units.lzw
    (Dict.codeOf s.units.lzw.dict s.units.lzw.matched) (hlzw hlive)
  generalize closingCodes s.units.lzw (Dict.codeOf s.units.lzw.dict s.units.lzw.matched) = codes
    at *
  have hlen : (finalBytes s.units.bp codes).length ≤ 255 :=
    (finalBytes_length s.units.bp codes).trans (by omega)
  obtain ⟨_, htail⟩ := chunks_append s.units.sb payload (finalBytes s.units.bp codes) hjoin.1 hlen
  refine ⟨_, payload ++ finalBytes s.units.bp codes, hexec, hnext, rfl,
    List.append_ne_nil_of_right_ne_nil _ (finalBytes_ne_nil _ _ hpos), ?_⟩
  rw [wrote_out, List.nil_append, ← List.append_assoc, hjoin.flushOut codes hlen, List.append_assoc,
    ← chunked_terminated, ← htail]
  rfl

/-- Settles O39: the commands run one after the other, each from the state before it: the header, the
palette, the opening of the image data, the pixels, the end. -/
theorem frameIsHeaderTableAndDataBlock : Obligations.FrameIsHeaderTableAndDataBlock := by
  intro s width height delay palette last indices d hs hinv hca hsink hw hh hlen h1 hd
    hleast hk lo hi
  obtain ⟨t0, hbegin, ht0, hout0, hstate0, hcount0, hn0, hdepth0⟩ := exec_frameBegin_wrote s width
    height delay _ d ⟨hs, hinv, hsink⟩ hca hw hh (by omega) hlen h1 hd hleast
  obtain ⟨t1, hpalette, ht1, hout1, hstate1, hdepth1⟩ :=
    runs_palette palette last t0 d ht0 hstate0 hcount0 hn0 hdepth0 hd
  obtain ⟨t2, payload2, hdata, ht2, hstate2, hdepth2, hjoin2⟩ :=
    exec_dataBegin_wrote t1 d ht1 hstate1 hdepth1
  obtain ⟨t3, payload3, hpixels, ht3, hstate3, hjoin3⟩ :=
    runs_pixels indices _ payload2 t2 ht2 hstate2 (by rwa [hdepth2]) hjoin2
  obtain ⟨t4, payload4, hend, ht4, hstate4, hne, hout4⟩ :=
    exec_frameEnd_wrote _ payload3 t3 ht3 hstate3 hjoin3
  refine ⟨t4, payload4, ?_, hne, ?_, hstate4, ht4.ready, ht4.inv⟩
  · refine (runs_append _ _ _ _).mpr ⟨t3, (runs_append _ _ _ _).mpr ⟨t1, ⟨t0, hbegin, hpalette⟩,
      ⟨t2, hdata, hpixels⟩⟩, (runs_singleton _ _ _).mpr hend⟩
  · rw [hout4, hout1, hout0]
    rfl

end Sys2Proof.Machine
end
